-- ==== Sys2Proof/Word.lean ====
section
/-! DEFINITION. The word types of the core (spec/00_scope.md R5, R6, R61; spec/30_encoding.md R60).
No definition here computes anything: bit fields, extensions and byte order stand in Decode.lean and under Machine/. -/

namespace Sys2Proof

/-- A storage cell: `SLEN` = 64 bits (R5). Registers, the pc and addresses are held in cells. -/
abbrev Word := BitVec 64

/-- A byte of either buffer (R40). -/
abbrev Byte := BitVec 8

/-- An instruction word: `ILEN` = 32 bits (R5, R60). -/
abbrev InstrWord := BitVec 32

/-- A register index, a 5-bit value 0 .. 31 (R10, R61). -/
abbrev RegIdx := BitVec 5

end Sys2Proof
end

