-- ==== Sys2Proof/Syntax.lean ====
section
/-! DEFINITION. The decoded instruction (spec/30_encoding.md R66): one constructor per row of
spec/opcode_table.json, carrying exactly the fields of its format, immediates raw (R63). -/

namespace Sys2Proof

/-- The closed tagged union of R66. Fields have the width of R61 and R63. Bits the format leaves
implicitly zero (bit 0 of `immB` and `immJ`, the low 12 of `immU`) are checked in WellFormed.lean. -/
inductive Instr where
  -- format U
  | lui    (rd : RegIdx) (immU : BitVec 32)
  | auipc  (rd : RegIdx) (immU : BitVec 32)
  -- format J
  | jal    (rd : RegIdx) (immJ : BitVec 21)
  -- format I, register-indirect jump
  | jalr   (rd rs1 : RegIdx) (immI : BitVec 12)
  -- format B
  | beq    (rs1 rs2 : RegIdx) (immB : BitVec 13)
  | bne    (rs1 rs2 : RegIdx) (immB : BitVec 13)
  | blt    (rs1 rs2 : RegIdx) (immB : BitVec 13)
  | bge    (rs1 rs2 : RegIdx) (immB : BitVec 13)
  | bltu   (rs1 rs2 : RegIdx) (immB : BitVec 13)
  | bgeu   (rs1 rs2 : RegIdx) (immB : BitVec 13)
  -- format I, loads
  | lb     (rd rs1 : RegIdx) (immI : BitVec 12)
  | lh     (rd rs1 : RegIdx) (immI : BitVec 12)
  | lw     (rd rs1 : RegIdx) (immI : BitVec 12)
  | lbu    (rd rs1 : RegIdx) (immI : BitVec 12)
  | lhu    (rd rs1 : RegIdx) (immI : BitVec 12)
  -- format S
  | sb     (rs1 rs2 : RegIdx) (immS : BitVec 12)
  | sh     (rs1 rs2 : RegIdx) (immS : BitVec 12)
  | sw     (rs1 rs2 : RegIdx) (immS : BitVec 12)
  -- format I, register-immediate
  | addi   (rd rs1 : RegIdx) (immI : BitVec 12)
  | slti   (rd rs1 : RegIdx) (immI : BitVec 12)
  | sltiu  (rd rs1 : RegIdx) (immI : BitVec 12)
  | xori   (rd rs1 : RegIdx) (immI : BitVec 12)
  | ori    (rd rs1 : RegIdx) (immI : BitVec 12)
  | andi   (rd rs1 : RegIdx) (immI : BitVec 12)
  -- format I, shift form
  | slli   (rd rs1 : RegIdx) (shamt : BitVec 6)
  | srli   (rd rs1 : RegIdx) (shamt : BitVec 6)
  | srai   (rd rs1 : RegIdx) (shamt : BitVec 6)
  -- format R
  | add    (rd rs1 rs2 : RegIdx)
  | sub    (rd rs1 rs2 : RegIdx)
  | sll    (rd rs1 rs2 : RegIdx)
  | slt    (rd rs1 rs2 : RegIdx)
  | sltu   (rd rs1 rs2 : RegIdx)
  | xor    (rd rs1 rs2 : RegIdx)
  | srl    (rd rs1 rs2 : RegIdx)
  | sra    (rd rs1 rs2 : RegIdx)
  | or     (rd rs1 rs2 : RegIdx)
  | and    (rd rs1 rs2 : RegIdx)
  -- format I, fences: `immI` is fm, pred, succ for FENCE (R66); all three fields are kept (D11)
  | fence  (rd rs1 : RegIdx) (immI : BitVec 12)
  | fenceI (rd rs1 : RegIdx) (immI : BitVec 12)
  deriving DecidableEq, Repr

/-- The tag's mnemonic, as spec/opcode_table.json spells it. -/
def Instr.mnemonic : Instr → String
  | .lui _ _ => "LUI"
  | .auipc _ _ => "AUIPC"
  | .jal _ _ => "JAL"
  | .jalr _ _ _ => "JALR"
  | .beq _ _ _ => "BEQ"
  | .bne _ _ _ => "BNE"
  | .blt _ _ _ => "BLT"
  | .bge _ _ _ => "BGE"
  | .bltu _ _ _ => "BLTU"
  | .bgeu _ _ _ => "BGEU"
  | .lb _ _ _ => "LB"
  | .lh _ _ _ => "LH"
  | .lw _ _ _ => "LW"
  | .lbu _ _ _ => "LBU"
  | .lhu _ _ _ => "LHU"
  | .sb _ _ _ => "SB"
  | .sh _ _ _ => "SH"
  | .sw _ _ _ => "SW"
  | .addi _ _ _ => "ADDI"
  | .slti _ _ _ => "SLTI"
  | .sltiu _ _ _ => "SLTIU"
  | .xori _ _ _ => "XORI"
  | .ori _ _ _ => "ORI"
  | .andi _ _ _ => "ANDI"
  | .slli _ _ _ => "SLLI"
  | .srli _ _ _ => "SRLI"
  | .srai _ _ _ => "SRAI"
  | .add _ _ _ => "ADD"
  | .sub _ _ _ => "SUB"
  | .sll _ _ _ => "SLL"
  | .slt _ _ _ => "SLT"
  | .sltu _ _ _ => "SLTU"
  | .xor _ _ _ => "XOR"
  | .srl _ _ _ => "SRL"
  | .sra _ _ _ => "SRA"
  | .or _ _ _ => "OR"
  | .and _ _ _ => "AND"
  | .fence _ _ _ => "FENCE"
  | .fenceI _ _ _ => "FENCE.I"

end Sys2Proof
end

