-- ==== Sys2Proof/WellFormed.lean ====
section
/-! DEFINITION. The representable instructions (spec/30_encoding.md R66, R63): every field in the range of its
format. Register indices and the other immediates are in range by their types; what is checked are the bits
a format leaves implicitly zero. -/

namespace Sys2Proof

/-- `immB`: "bit 0 implicitly zero" (R63). -/
def immBOk (imm : BitVec 13) : Bool := imm.getLsbD 0 == false

/-- `immJ`: "bit 0 implicitly zero" (R63). -/
def immJOk (imm : BitVec 21) : Bool := imm.getLsbD 0 == false

/-- `immU`: "upper 20 bits, lower 12 zero" (R63). -/
def immUOk (imm : BitVec 32) : Bool := imm.extractLsb' 0 12 == 0

/-- Representable in the sense of R66. -/
def Instr.wellFormed : Instr → Bool
  | .lui _ immU => immUOk immU
  | .auipc _ immU => immUOk immU
  | .jal _ immJ => immJOk immJ
  | .jalr _ _ _ => true
  | .beq _ _ immB => immBOk immB
  | .bne _ _ immB => immBOk immB
  | .blt _ _ immB => immBOk immB
  | .bge _ _ immB => immBOk immB
  | .bltu _ _ immB => immBOk immB
  | .bgeu _ _ immB => immBOk immB
  | .lb _ _ _ => true
  | .lh _ _ _ => true
  | .lw _ _ _ => true
  | .lbu _ _ _ => true
  | .lhu _ _ _ => true
  | .sb _ _ _ => true
  | .sh _ _ _ => true
  | .sw _ _ _ => true
  | .addi _ _ _ => true
  | .slti _ _ _ => true
  | .sltiu _ _ _ => true
  | .xori _ _ _ => true
  | .ori _ _ _ => true
  | .andi _ _ _ => true
  | .slli _ _ _ => true
  | .srli _ _ _ => true
  | .srai _ _ _ => true
  | .add _ _ _ => true
  | .sub _ _ _ => true
  | .sll _ _ _ => true
  | .slt _ _ _ => true
  | .sltu _ _ _ => true
  | .xor _ _ _ => true
  | .srl _ _ _ => true
  | .sra _ _ _ => true
  | .or _ _ _ => true
  | .and _ _ _ => true
  | .fence _ _ _ => true
  | .fenceI _ _ _ => true

end Sys2Proof
end

