-- ==== Sys2Proof/Decode.lean ====
section
/-! DEFINITION. Decode and encode (spec/30_encoding.md R60 to R83), and the opcode table.
Bit positions and opcode numbers are the ones of R61 to R76; decode reads no state (R67). -/

namespace Sys2Proof

/-! ### Fields (R61) -/

/-- `w[6:0]`. -/
def opcodeOf (w : InstrWord) : BitVec 7 := w.extractLsb' 0 7
/-- `w[11:7]`. -/
def rdOf (w : InstrWord) : RegIdx := w.extractLsb' 7 5
/-- `w[14:12]`. -/
def funct3Of (w : InstrWord) : BitVec 3 := w.extractLsb' 12 3
/-- `w[19:15]`. -/
def rs1Of (w : InstrWord) : RegIdx := w.extractLsb' 15 5
/-- `w[24:20]`. -/
def rs2Of (w : InstrWord) : RegIdx := w.extractLsb' 20 5
/-- `w[31:25]`. -/
def funct7Of (w : InstrWord) : BitVec 7 := w.extractLsb' 25 7
/-- `w[31:26]`, the discriminator of the shift form (R62, R74). -/
def funct6Of (w : InstrWord) : BitVec 6 := w.extractLsb' 26 6

/-- The field `v` in an `n`-bit vector of zeros, its bit 0 at bit `lo`. -/
def placeAt (n : Nat) {k : Nat} (v : BitVec k) (lo : Nat) : BitVec n := (v.setWidth n) <<< lo

/-! ### Immediates, raw (R63, R64) -/

/-- `w[31:20]`. -/
def immIOf (w : InstrWord) : BitVec 12 := w.extractLsb' 20 12
/-- `w[31:25] ++ w[11:7]`. -/
def immSOf (w : InstrWord) : BitVec 12 :=
  placeAt 12 (w.extractLsb' 25 7) 5 ||| placeAt 12 (w.extractLsb' 7 5) 0
/-- `w[31] ++ w[7] ++ w[30:25] ++ w[11:8] ++ 0`. -/
def immBOf (w : InstrWord) : BitVec 13 :=
  placeAt 13 (w.extractLsb' 31 1) 12 ||| placeAt 13 (w.extractLsb' 7 1) 11 |||
    placeAt 13 (w.extractLsb' 25 6) 5 ||| placeAt 13 (w.extractLsb' 8 4) 1
/-- `w[31:12] ++ 0x000`. -/
def immUOf (w : InstrWord) : BitVec 32 := placeAt 32 (w.extractLsb' 12 20) 12
/-- `w[31] ++ w[19:12] ++ w[20] ++ w[30:21] ++ 0`. -/
def immJOf (w : InstrWord) : BitVec 21 :=
  placeAt 21 (w.extractLsb' 31 1) 20 ||| placeAt 21 (w.extractLsb' 12 8) 12 |||
    placeAt 21 (w.extractLsb' 20 1) 11 ||| placeAt 21 (w.extractLsb' 21 10) 1
/-- `w[25:20]`. -/
def shamtOf (w : InstrWord) : BitVec 6 := w.extractLsb' 20 6

/-! ### Decode (R67) -/

/-- Why a word (or a byte sequence) is "no decode" (R67, R78). -/
inductive Reject where
  /-- Fewer than the four bytes of an instruction. -/
  | truncated
  /-- A major opcode other than the ten of R67 (R78). -/
  | opcode (op : BitVec 7)
  /-- A `funct3` that the opcode's rule does not list (R70 to R73, R76). -/
  | funct3 (op : BitVec 7) (f3 : BitVec 3)
  /-- A shift-immediate with a nonzero undefined discriminator bit (R74). -/
  | shiftBits (f3 : BitVec 3) (f6 : BitVec 6)
  /-- A register-register word with a nonzero undefined discriminator bit (R75). -/
  | funct7 (f3 : BitVec 3) (f7 : BitVec 7)
  deriving DecidableEq, Repr

/-- "A decoded instruction or no decode" (R67). -/
inductive Decoded where
  | instr (i : Instr)
  | reject (r : Reject)
  deriving DecidableEq, Repr

/-- The instruction, if there is one. -/
def Decoded.toOption : Decoded → Option Instr
  | .instr i => some i
  | .reject _ => none

/-- JALR (R70). -/
def decodeJalr (w : InstrWord) : Decoded :=
  if funct3Of w = 0b000#3 then .instr (.jalr (rdOf w) (rs1Of w) (immIOf w))
  else .reject (.funct3 (opcodeOf w) (funct3Of w))

/-- The branches (R71). -/
def decodeBranch (w : InstrWord) : Decoded :=
  if funct3Of w = 0b000#3 then .instr (.beq (rs1Of w) (rs2Of w) (immBOf w))
  else if funct3Of w = 0b001#3 then .instr (.bne (rs1Of w) (rs2Of w) (immBOf w))
  else if funct3Of w = 0b100#3 then .instr (.blt (rs1Of w) (rs2Of w) (immBOf w))
  else if funct3Of w = 0b101#3 then .instr (.bge (rs1Of w) (rs2Of w) (immBOf w))
  else if funct3Of w = 0b110#3 then .instr (.bltu (rs1Of w) (rs2Of w) (immBOf w))
  else if funct3Of w = 0b111#3 then .instr (.bgeu (rs1Of w) (rs2Of w) (immBOf w))
  else .reject (.funct3 (opcodeOf w) (funct3Of w))

/-- The loads (R72). -/
def decodeLoad (w : InstrWord) : Decoded :=
  if funct3Of w = 0b000#3 then .instr (.lb (rdOf w) (rs1Of w) (immIOf w))
  else if funct3Of w = 0b001#3 then .instr (.lh (rdOf w) (rs1Of w) (immIOf w))
  else if funct3Of w = 0b010#3 then .instr (.lw (rdOf w) (rs1Of w) (immIOf w))
  else if funct3Of w = 0b100#3 then .instr (.lbu (rdOf w) (rs1Of w) (immIOf w))
  else if funct3Of w = 0b101#3 then .instr (.lhu (rdOf w) (rs1Of w) (immIOf w))
  else .reject (.funct3 (opcodeOf w) (funct3Of w))

/-- The stores (R73). -/
def decodeStore (w : InstrWord) : Decoded :=
  if funct3Of w = 0b000#3 then .instr (.sb (rs1Of w) (rs2Of w) (immSOf w))
  else if funct3Of w = 0b001#3 then .instr (.sh (rs1Of w) (rs2Of w) (immSOf w))
  else if funct3Of w = 0b010#3 then .instr (.sw (rs1Of w) (rs2Of w) (immSOf w))
  else .reject (.funct3 (opcodeOf w) (funct3Of w))

/-- The register-immediate group (R74); for the shifts the undefined bits `w[31]`, `w[29:26]` (and `w[30]` for
SLLI) must be zero (spec/90_conflicts.md C4), and `w[25]` is kept (D12). -/
def decodeRegImm (w : InstrWord) : Decoded :=
  if funct3Of w = 0b000#3 then .instr (.addi (rdOf w) (rs1Of w) (immIOf w))
  else if funct3Of w = 0b010#3 then .instr (.slti (rdOf w) (rs1Of w) (immIOf w))
  else if funct3Of w = 0b011#3 then .instr (.sltiu (rdOf w) (rs1Of w) (immIOf w))
  else if funct3Of w = 0b100#3 then .instr (.xori (rdOf w) (rs1Of w) (immIOf w))
  else if funct3Of w = 0b110#3 then .instr (.ori (rdOf w) (rs1Of w) (immIOf w))
  else if funct3Of w = 0b111#3 then .instr (.andi (rdOf w) (rs1Of w) (immIOf w))
  else if funct3Of w = 0b001#3 then
    if funct6Of w = 0b000000#6 then .instr (.slli (rdOf w) (rs1Of w) (shamtOf w))
    else .reject (.shiftBits (funct3Of w) (funct6Of w))
  else
    if funct6Of w = 0b000000#6 then .instr (.srli (rdOf w) (rs1Of w) (shamtOf w))
    else if funct6Of w = 0b010000#6 then .instr (.srai (rdOf w) (rs1Of w) (shamtOf w))
    else .reject (.shiftBits (funct3Of w) (funct6Of w))

/-- The register-register group (R75): `funct7` is all zero but for the flag bit `w[30]` of SUB and SRA. -/
def decodeRegReg (w : InstrWord) : Decoded :=
  if funct7Of w = 0b0000000#7 then
    if funct3Of w = 0b000#3 then .instr (.add (rdOf w) (rs1Of w) (rs2Of w))
    else if funct3Of w = 0b001#3 then .instr (.sll (rdOf w) (rs1Of w) (rs2Of w))
    else if funct3Of w = 0b010#3 then .instr (.slt (rdOf w) (rs1Of w) (rs2Of w))
    else if funct3Of w = 0b011#3 then .instr (.sltu (rdOf w) (rs1Of w) (rs2Of w))
    else if funct3Of w = 0b100#3 then .instr (.xor (rdOf w) (rs1Of w) (rs2Of w))
    else if funct3Of w = 0b101#3 then .instr (.srl (rdOf w) (rs1Of w) (rs2Of w))
    else if funct3Of w = 0b110#3 then .instr (.or (rdOf w) (rs1Of w) (rs2Of w))
    else .instr (.and (rdOf w) (rs1Of w) (rs2Of w))
  else if funct7Of w = 0b0100000#7 then
    if funct3Of w = 0b000#3 then .instr (.sub (rdOf w) (rs1Of w) (rs2Of w))
    else if funct3Of w = 0b101#3 then .instr (.sra (rdOf w) (rs1Of w) (rs2Of w))
    else .reject (.funct7 (funct3Of w) (funct7Of w))
  else .reject (.funct7 (funct3Of w) (funct7Of w))

/-- The fences (R76): every `rd`, `rs1`, `immI` decodes and is kept (D11). -/
def decodeFence (w : InstrWord) : Decoded :=
  if funct3Of w = 0b000#3 then .instr (.fence (rdOf w) (rs1Of w) (immIOf w))
  else if funct3Of w = 0b001#3 then .instr (.fenceI (rdOf w) (rs1Of w) (immIOf w))
  else .reject (.funct3 (opcodeOf w) (funct3Of w))

/-- `decode(w)` of R67: dispatch on the opcode, then on `funct3` and `funct7`. -/
def decode (w : InstrWord) : Decoded :=
  if opcodeOf w = 0b0110111#7 then .instr (.lui (rdOf w) (immUOf w))
  else if opcodeOf w = 0b0010111#7 then .instr (.auipc (rdOf w) (immUOf w))
  else if opcodeOf w = 0b1101111#7 then .instr (.jal (rdOf w) (immJOf w))
  else if opcodeOf w = 0b1100111#7 then decodeJalr w
  else if opcodeOf w = 0b1100011#7 then decodeBranch w
  else if opcodeOf w = 0b0000011#7 then decodeLoad w
  else if opcodeOf w = 0b0100011#7 then decodeStore w
  else if opcodeOf w = 0b0010011#7 then decodeRegImm w
  else if opcodeOf w = 0b0110011#7 then decodeRegReg w
  else if opcodeOf w = 0b0001111#7 then decodeFence w
  else .reject (.opcode (opcodeOf w))

/-- The instruction word of four bytes, the first at the lowest address: little-endian (R43). -/
def wordOfBytes (b0 b1 b2 b3 : Byte) : InstrWord :=
  placeAt 32 b3 24 ||| placeAt 32 b2 16 ||| placeAt 32 b1 8 ||| placeAt 32 b0 0

/-- Decode the instruction at the head of a byte sequence: every instruction is four bytes (R60). -/
def decodeBytes : List Byte → Decoded
  | b0 :: b1 :: b2 :: b3 :: _ => decode (wordOfBytes b0 b1 b2 b3)
  | _ => .reject .truncated

/-- The four bytes of a word as the hardware stores them (R43). -/
def bytesOfWord (w : InstrWord) : List Byte :=
  [w.extractLsb' 0 8, w.extractLsb' 8 8, w.extractLsb' 16 8, w.extractLsb' 24 8]

/-- What the decoder reads from the instruction whose low `nbits` bits are those of `w`, the others zero. -/
def decodeTableWord (nbits w : Nat) : Option Instr :=
  (decodeBytes (bytesOfWord (BitVec.ofNat 32 (w % 2 ^ nbits)))).toOption

/-! ### Encode (R81) -/

/-- Layout R of R62. -/
def packR (funct7 : BitVec 7) (rs2 rs1 : RegIdx) (funct3 : BitVec 3) (rd : RegIdx) (op : BitVec 7) : InstrWord :=
  placeAt 32 op 0 ||| placeAt 32 rd 7 ||| placeAt 32 funct3 12 ||| placeAt 32 rs1 15 ||| placeAt 32 rs2 20 |||
    placeAt 32 funct7 25
/-- Layout I of R62. -/
def packI (immI : BitVec 12) (rs1 : RegIdx) (funct3 : BitVec 3) (rd : RegIdx) (op : BitVec 7) : InstrWord :=
  placeAt 32 op 0 ||| placeAt 32 rd 7 ||| placeAt 32 funct3 12 ||| placeAt 32 rs1 15 ||| placeAt 32 immI 20
/-- Layout I, shift form, of R62. -/
def packShift (funct6 shamt : BitVec 6) (rs1 : RegIdx) (funct3 : BitVec 3) (rd : RegIdx) (op : BitVec 7) : InstrWord :=
  placeAt 32 op 0 ||| placeAt 32 rd 7 ||| placeAt 32 funct3 12 ||| placeAt 32 rs1 15 ||| placeAt 32 shamt 20 |||
    placeAt 32 funct6 26
/-- Layout S of R62. -/
def packS (immS : BitVec 12) (rs2 rs1 : RegIdx) (funct3 : BitVec 3) (op : BitVec 7) : InstrWord :=
  placeAt 32 op 0 ||| placeAt 32 (immS.extractLsb' 0 5) 7 ||| placeAt 32 funct3 12 ||| placeAt 32 rs1 15 |||
    placeAt 32 rs2 20 ||| placeAt 32 (immS.extractLsb' 5 7) 25
/-- Layout B of R62. `immB[0]` is not encoded. -/
def packB (immB : BitVec 13) (rs2 rs1 : RegIdx) (funct3 : BitVec 3) (op : BitVec 7) : InstrWord :=
  placeAt 32 op 0 ||| placeAt 32 (immB.extractLsb' 11 1) 7 ||| placeAt 32 (immB.extractLsb' 1 4) 8 |||
    placeAt 32 funct3 12 ||| placeAt 32 rs1 15 ||| placeAt 32 rs2 20 ||| placeAt 32 (immB.extractLsb' 5 6) 25 |||
    placeAt 32 (immB.extractLsb' 12 1) 31
/-- Layout U of R62. `immU[11:0]` is not encoded. -/
def packU (immU : BitVec 32) (rd : RegIdx) (op : BitVec 7) : InstrWord :=
  placeAt 32 op 0 ||| placeAt 32 rd 7 ||| placeAt 32 (immU.extractLsb' 12 20) 12
/-- Layout J of R62, R64. `immJ[0]` is not encoded. -/
def packJ (immJ : BitVec 21) (rd : RegIdx) (op : BitVec 7) : InstrWord :=
  placeAt 32 op 0 ||| placeAt 32 rd 7 ||| placeAt 32 (immJ.extractLsb' 12 8) 12 |||
    placeAt 32 (immJ.extractLsb' 11 1) 20 ||| placeAt 32 (immJ.extractLsb' 1 10) 21 |||
    placeAt 32 (immJ.extractLsb' 20 1) 31

/-- The word of an instruction, by its layout. Of an instruction that is not representable it drops the bits
the layout has no place for; `encode` is not defined there. -/
def encodeWord : Instr → InstrWord
  | .lui rd immU => packU immU rd 0b0110111#7
  | .auipc rd immU => packU immU rd 0b0010111#7
  | .jal rd immJ => packJ immJ rd 0b1101111#7
  | .jalr rd rs1 immI => packI immI rs1 0b000#3 rd 0b1100111#7
  | .beq rs1 rs2 immB => packB immB rs2 rs1 0b000#3 0b1100011#7
  | .bne rs1 rs2 immB => packB immB rs2 rs1 0b001#3 0b1100011#7
  | .blt rs1 rs2 immB => packB immB rs2 rs1 0b100#3 0b1100011#7
  | .bge rs1 rs2 immB => packB immB rs2 rs1 0b101#3 0b1100011#7
  | .bltu rs1 rs2 immB => packB immB rs2 rs1 0b110#3 0b1100011#7
  | .bgeu rs1 rs2 immB => packB immB rs2 rs1 0b111#3 0b1100011#7
  | .lb rd rs1 immI => packI immI rs1 0b000#3 rd 0b0000011#7
  | .lh rd rs1 immI => packI immI rs1 0b001#3 rd 0b0000011#7
  | .lw rd rs1 immI => packI immI rs1 0b010#3 rd 0b0000011#7
  | .lbu rd rs1 immI => packI immI rs1 0b100#3 rd 0b0000011#7
  | .lhu rd rs1 immI => packI immI rs1 0b101#3 rd 0b0000011#7
  | .sb rs1 rs2 immS => packS immS rs2 rs1 0b000#3 0b0100011#7
  | .sh rs1 rs2 immS => packS immS rs2 rs1 0b001#3 0b0100011#7
  | .sw rs1 rs2 immS => packS immS rs2 rs1 0b010#3 0b0100011#7
  | .addi rd rs1 immI => packI immI rs1 0b000#3 rd 0b0010011#7
  | .slti rd rs1 immI => packI immI rs1 0b010#3 rd 0b0010011#7
  | .sltiu rd rs1 immI => packI immI rs1 0b011#3 rd 0b0010011#7
  | .xori rd rs1 immI => packI immI rs1 0b100#3 rd 0b0010011#7
  | .ori rd rs1 immI => packI immI rs1 0b110#3 rd 0b0010011#7
  | .andi rd rs1 immI => packI immI rs1 0b111#3 rd 0b0010011#7
  | .slli rd rs1 shamt => packShift 0b000000#6 shamt rs1 0b001#3 rd 0b0010011#7
  | .srli rd rs1 shamt => packShift 0b000000#6 shamt rs1 0b101#3 rd 0b0010011#7
  | .srai rd rs1 shamt => packShift 0b010000#6 shamt rs1 0b101#3 rd 0b0010011#7
  | .add rd rs1 rs2 => packR 0b0000000#7 rs2 rs1 0b000#3 rd 0b0110011#7
  | .sub rd rs1 rs2 => packR 0b0100000#7 rs2 rs1 0b000#3 rd 0b0110011#7
  | .sll rd rs1 rs2 => packR 0b0000000#7 rs2 rs1 0b001#3 rd 0b0110011#7
  | .slt rd rs1 rs2 => packR 0b0000000#7 rs2 rs1 0b010#3 rd 0b0110011#7
  | .sltu rd rs1 rs2 => packR 0b0000000#7 rs2 rs1 0b011#3 rd 0b0110011#7
  | .xor rd rs1 rs2 => packR 0b0000000#7 rs2 rs1 0b100#3 rd 0b0110011#7
  | .srl rd rs1 rs2 => packR 0b0000000#7 rs2 rs1 0b101#3 rd 0b0110011#7
  | .sra rd rs1 rs2 => packR 0b0100000#7 rs2 rs1 0b101#3 rd 0b0110011#7
  | .or rd rs1 rs2 => packR 0b0000000#7 rs2 rs1 0b110#3 rd 0b0110011#7
  | .and rd rs1 rs2 => packR 0b0000000#7 rs2 rs1 0b111#3 rd 0b0110011#7
  | .fence rd rs1 immI => packI immI rs1 0b000#3 rd 0b0001111#7
  | .fenceI rd rs1 immI => packI immI rs1 0b001#3 rd 0b0001111#7

/-- `encode(instr)` of R81: defined on representable instructions only (D17; log 12). -/
def encode (i : Instr) : Option InstrWord :=
  if i.wellFormed then some (encodeWord i) else none

/-! ### The opcode table -/

/-- A row of spec/opcode_table.json: a word belongs to it when `w &&& mask = pattern` (its "match"). -/
structure OpcodeRow where
  mnemonic : String
  mask : InstrWord
  pattern : InstrWord
  deriving DecidableEq, Repr

/-- The word matches the row. -/
def OpcodeRow.matchesWord (row : OpcodeRow) (w : InstrWord) : Bool := w &&& row.mask == row.pattern

/-- Rows of the U and J layouts and JALR (R68, R69, R70). -/
def tableUpperAndJumps : List OpcodeRow :=
  [
    ⟨"LUI", 0x0000007f, 0x00000037⟩,
    ⟨"AUIPC", 0x0000007f, 0x00000017⟩,
    ⟨"JAL", 0x0000007f, 0x0000006f⟩,
    ⟨"JALR", 0x0000707f, 0x00000067⟩
  ]

/-- Rows of the B layout (R71). -/
def tableBranches : List OpcodeRow :=
  [
    ⟨"BEQ", 0x0000707f, 0x00000063⟩,
    ⟨"BNE", 0x0000707f, 0x00001063⟩,
    ⟨"BLT", 0x0000707f, 0x00004063⟩,
    ⟨"BGE", 0x0000707f, 0x00005063⟩,
    ⟨"BLTU", 0x0000707f, 0x00006063⟩,
    ⟨"BGEU", 0x0000707f, 0x00007063⟩
  ]

/-- Rows of the loads (R72). -/
def tableLoads : List OpcodeRow :=
  [
    ⟨"LB", 0x0000707f, 0x00000003⟩,
    ⟨"LH", 0x0000707f, 0x00001003⟩,
    ⟨"LW", 0x0000707f, 0x00002003⟩,
    ⟨"LBU", 0x0000707f, 0x00004003⟩,
    ⟨"LHU", 0x0000707f, 0x00005003⟩
  ]

/-- Rows of the stores (R73). -/
def tableStores : List OpcodeRow :=
  [
    ⟨"SB", 0x0000707f, 0x00000023⟩,
    ⟨"SH", 0x0000707f, 0x00001023⟩,
    ⟨"SW", 0x0000707f, 0x00002023⟩
  ]

/-- Rows of the register-immediate group (R74). -/
def tableRegImm : List OpcodeRow :=
  [
    ⟨"ADDI", 0x0000707f, 0x00000013⟩,
    ⟨"SLTI", 0x0000707f, 0x00002013⟩,
    ⟨"SLTIU", 0x0000707f, 0x00003013⟩,
    ⟨"XORI", 0x0000707f, 0x00004013⟩,
    ⟨"ORI", 0x0000707f, 0x00006013⟩,
    ⟨"ANDI", 0x0000707f, 0x00007013⟩,
    ⟨"SLLI", 0xfc00707f, 0x00001013⟩,
    ⟨"SRLI", 0xfc00707f, 0x00005013⟩,
    ⟨"SRAI", 0xfc00707f, 0x40005013⟩
  ]

/-- Rows of the register-register group (R75). -/
def tableRegReg : List OpcodeRow :=
  [
    ⟨"ADD", 0xfe00707f, 0x00000033⟩,
    ⟨"SUB", 0xfe00707f, 0x40000033⟩,
    ⟨"SLL", 0xfe00707f, 0x00001033⟩,
    ⟨"SLT", 0xfe00707f, 0x00002033⟩,
    ⟨"SLTU", 0xfe00707f, 0x00003033⟩,
    ⟨"XOR", 0xfe00707f, 0x00004033⟩,
    ⟨"SRL", 0xfe00707f, 0x00005033⟩,
    ⟨"SRA", 0xfe00707f, 0x40005033⟩,
    ⟨"OR", 0xfe00707f, 0x00006033⟩,
    ⟨"AND", 0xfe00707f, 0x00007033⟩
  ]

/-- Rows of the fences (R76). -/
def tableFences : List OpcodeRow :=
  [
    ⟨"FENCE", 0x0000707f, 0x0000000f⟩,
    ⟨"FENCE.I", 0x0000707f, 0x0000100f⟩
  ]

/-- spec/opcode_table.json, row by row in its order. -/
def opcodeTable : List OpcodeRow :=
  tableUpperAndJumps ++ tableBranches ++ tableLoads ++ tableStores ++ tableRegImm ++ tableRegReg ++ tableFences

end Sys2Proof
end

