-- ==== Sys2Proof/Config.lean ====
section
/-! DEFINITION. What a launch or an implementation fixes, and the free values the spec leaves open.
The launch parameters P1, P3 and P4 (spec/92_eei_decisions.md) are ARGUMENTS of `State.launch`; the three
constants below only name the values that `State.reset` uses for them. -/

namespace Sys2Proof

/-- The width mode of `State.reset`: native. DESIGN CHOICE, unsafe (log 1): the spec has `RESET_W32` OPEN (P1, R33). -/
def Config.resetW32 : Bool := false

/-- The memory length of `State.reset`: 2^32 bytes. DESIGN CHOICE, unsafe (log 2): the spec has `MEM_LEN` OPEN (P3). -/
def Config.resetMemLen : Nat := 0x100000000

/-- What a byte that the list of a buffer does not name reads as: 0. DESIGN CHOICE, unsafe (log 3):
the spec has `MEM_INIT` OPEN (P4). Any other initial contents are listed (`State.launch`). -/
def Config.unlistedByte : Byte := 0

/-- The width an ISA name maps to: `some true` for 32 bits, `some false` for native, `none` for a name that is
not recognised. FREE VALUE (log 9): the recognised strings are not in the source (R205, U9). -/
opaque Config.isaNameWidth : String → Option Bool

/-- The text of a trace line, from the re-encoded word and the instruction. FREE VALUE (log 8): the text is not
specified (R203, U8), and no state depends on it. -/
opaque Config.traceText : InstrWord → Instr → String

end Sys2Proof
end

