-- ==== Sys2Proof/Machine/State.lean ====
section
/-! DEFINITION. The state of the core (spec/10_state.md R10 to R34), the fault records (spec/60_exceptions.md R220),
the refusals, and reset (R33, R250). Plain data. -/

namespace Sys2Proof.Machine

/-- The width of a data access: 1, 2 or 4 bytes (R49). -/
inductive AccessSize where
  | byte
  | half
  | word
  deriving DecidableEq, Repr

/-- The direction a bounds fault records (R220). -/
inductive AccessDir where
  | read
  | write
  deriving DecidableEq, Repr

/-- The closed set of fatal faults (R220), each with what `FAULT` records of it. A fault is TAKEN as R226 says
(`State.raise` in Ops.lean): the record is latched in the next state's `fault`, so these are values of `State.fault`.
No step answers `Host.Outcome.fault`, because the spec gives every fault an effect (log 5). All safe: the core
takes no further step. -/
inductive Fault where
  /-- Code 1, `FetchBoundsFault`. Raised by the fetch stage of a step: `pc + 4 > CODE_LEN`. -/
  | fetchBounds (pc : Word)
  /-- Code 2, `DecodeFault`. Raised by the decode stage of a step: the word is "no decode". -/
  | decode (pc : Word) (word : InstrWord)
  /-- Code 3, `MemBoundsFault`. Raised by the loads and stores: `addr + n > MEM_LEN`. -/
  | memBounds (pc addr : Word) (size : AccessSize) (dir : AccessDir)
  /-- Code 4, `PcAlignFault`. Raised by the host operation `set_pc` with an odd address. -/
  | pcAlign (address : Word)
  /-- Code 5, `PcIncrementFault`. Raised by the primitive `increment_pc` with an odd size; no instruction does. -/
  | pcIncrement (size : Word)
  deriving DecidableEq, Repr

/-- What the model gives no meaning. -/
inductive Refusal where
  /-- An instruction without a meaning yet. Raised by no arm of `exec`: every instruction has its meaning. Safe. -/
  | notModelled (mnemonic : String)
  /-- The host operation `host_write_mem` outside `MEM`: R200 defines it "inside its bounds" only (log 11). Raised by
  `perform`, never by an instruction or a step. Safe. -/
  | hostMemOutOfBounds
  deriving DecidableEq, Repr

/-- A buffer of `len` bytes, addresses 0 .. `len - 1` (R30, R31, R41). `cells` lists, addresses rising, the bytes that
differ from `Config.unlistedByte`; `Memory.wf` in Ops.lean is its canonical form. -/
structure Memory where
  len : Nat
  cells : List Host.Cell
  deriving DecidableEq, Repr

/-- What a trace line is derived from (R193, R203): the re-encoded word and the instruction. -/
structure TraceLine where
  word : InstrWord
  instr : Instr
  deriving DecidableEq, Repr

/-- All the state of the core (R10 to R33), and the trace lines it has put out. -/
structure State where
  /-- `X[0..31]`, the storage cells (R10). -/
  regs : Vector Word 32
  /-- `PC`, the storage cell (R21). -/
  pc : Word
  /-- `W32`: true in 32-bit mode, false in native mode (R13). -/
  w32 : Bool
  /-- `TRACE` (R28, R202). -/
  trace : Bool
  /-- `FAULT`, the fatal-fault latch (R28, R226). -/
  fault : Option Fault
  /-- `CODE` and `CODE_LEN` (R30). -/
  code : Memory
  /-- `MEM` and `MEM_LEN` (R31). -/
  mem : Memory
  /-- The model's own field: the lines emitted to the trace sink, oldest first (R193; log 7). Nothing reads it. -/
  sink : List TraceLine
  deriving DecidableEq, Repr

/-- The state after reset with the launch parameters `RESET_W32`, `MEM_LEN` and `MEM_INIT` (R33, R250). -/
def State.launch (resetW32 : Bool) (memInit : Memory) : State :=
  { regs := Vector.replicate 32 0
    pc := 0
    w32 := resetW32
    trace := false
    fault := none
    code := { len := 0, cells := [] }
    mem := memInit
    sink := [] }

/-- Reset with the parameters Config.lean names (logs 1, 2, 3). Every other launch is `State.launch`. -/
def State.reset : State :=
  State.launch Config.resetW32 { len := Config.resetMemLen, cells := [] }

end Sys2Proof.Machine
end

