-- ==== Sys2Proof/Machine/Ops.lean ====
section
/-! DEFINITION. The named operations over buffers, registers and the pc (spec/10_state.md R17 to R26,
spec/20_memory.md R43 to R46), and taking a fault (spec/60_exceptions.md R221, R226).

An `XLEN`-bit vector is held zero-extended in a 64-bit `Word` (R16; log 4): `State.trunc` is `trunc_XLEN`. -/

namespace Sys2Proof.Machine

/-! ### Extension (R7) -/

/-- `sign_extend(value, k)` of R7, as written there. -/
def signExtendAt (value : Word) (k : Nat) : Word :=
  let high := ~~~((1#64 <<< (k + 1)) - 1#64)
  if value.getLsbD k then value ||| high else value &&& ~~~high

/-- `sext_N(v)`: `sign_extend(zext(v), N - 1)` (R7). -/
def sext {n : Nat} (v : BitVec n) : Word := signExtendAt (v.setWidth 64) (n - 1)

/-- `zext_32(v[31:0])`. -/
def low32 (v : Word) : Word := (v.setWidth 32).setWidth 64

/-! ### Cells -/

/-- The byte a cell list gives an address. -/
def cellGet : List Host.Cell → Nat → Byte
  | [], _ => Config.unlistedByte
  | (k, v) :: rest, a => if k = a then v else cellGet rest a

/-- The list without any entry at `a`. -/
def cellErase : List Host.Cell → Nat → List Host.Cell
  | [], _ => []
  | (k, v) :: rest, a => if k = a then cellErase rest a else (k, v) :: cellErase rest a

/-- The entry put before the first greater address. -/
def cellInsert : List Host.Cell → Nat → Byte → List Host.Cell
  | [], a, b => [(a, b)]
  | (k, v) :: rest, a, b => if a < k then (a, b) :: (k, v) :: rest else (k, v) :: cellInsert rest a b

/-- Replace the byte at `a`; the byte an unlisted address reads as is not listed. -/
def cellSet (cells : List Host.Cell) (a : Nat) (b : Byte) : List Host.Cell :=
  if b = Config.unlistedByte then cellErase cells a else cellInsert (cellErase cells a) a b

/-- Addresses at least `lo`, strictly rising, below `hi`, and no entry an unlisted address would give. -/
def cellsWf (hi : Nat) : Nat → List Host.Cell → Bool
  | _, [] => true
  | lo, (k, v) :: rest => decide (lo ≤ k) && decide (k < hi) && decide (v ≠ Config.unlistedByte) && cellsWf hi (k + 1) rest

/-- The list of a byte sequence laid from address `a` upward. -/
def cellsOfBytes : Nat → List Byte → List Host.Cell
  | _, [] => []
  | a, b :: rest => if b = Config.unlistedByte then cellsOfBytes (a + 1) rest else (a, b) :: cellsOfBytes (a + 1) rest

/-! ### Buffers (R41 to R46) -/

/-- The canonical form of a buffer: equal buffers are equal data. -/
def Memory.wf (m : Memory) : Bool := cellsWf m.len 0 m.cells

/-- Element `a` of the buffer (R41). -/
def Memory.byteAt (m : Memory) (a : Nat) : Byte := cellGet m.cells a

/-- Element `a` replaced. -/
def Memory.setByte (m : Memory) (a : Nat) (b : Byte) : Memory := { m with cells := cellSet m.cells a b }

/-- The buffer that `bytes` makes: byte `i` at address `i` (R197). -/
def Memory.ofBytes (bytes : List Byte) : Memory := { len := bytes.length, cells := cellsOfBytes 0 bytes }

/-- `n` bytes at `a`, little-endian, zero-extended (R43, R44). -/
def Memory.readLE (m : Memory) (a : Nat) : Nat → Word
  | 0 => 0
  | n + 1 => (m.byteAt a).setWidth 64 ||| (m.readLE (a + 1) n <<< 8)

/-- The low `8n` bits of `v` stored little-endian at `a` (R43, R45). -/
def Memory.writeLE (m : Memory) (a : Nat) : Nat → Word → Memory
  | 0, _ => m
  | n + 1, v => (m.setByte a (v.setWidth 8)).writeLE (a + 1) n (v >>> 8)

/-- The `n` bytes at `a .. a + n - 1`, in address order. -/
def Memory.bytesAt (m : Memory) (a : Nat) : Nat → List Byte
  | 0 => []
  | n + 1 => m.byteAt a :: m.bytesAt (a + 1) n

/-- The bytes put at `a`, `a + 1`, ... -/
def Memory.setBytes (m : Memory) (a : Nat) : List Byte → Memory
  | [] => m
  | b :: rest => (m.setByte a b).setBytes (a + 1) rest

/-- The range check of R44 to R46, on the natural-number sum: every byte of the access exists, that is, not
`addr + n > LEN`. For a `MEM` longer than 2^`XLEN` this is a DESIGN CHOICE (log 20; `State.memRead`). -/
def Memory.inBounds (m : Memory) (a n : Nat) : Bool := decide (a + n ≤ m.len)

/-! ### Access sizes -/

/-- `n`, the number of bytes (R49). -/
def AccessSize.bytes : AccessSize → Nat
  | .byte => 1
  | .half => 2
  | .word => 4

/-! ### Width and registers (R16 to R19) -/

/-- `XLEN` (R16). -/
def State.xlen (s : State) : Nat := if s.w32 then 32 else 64

/-- `trunc_XLEN(v)`, zero-extended to a cell. -/
def State.trunc (s : State) (v : Word) : Word := if s.w32 then low32 v else v

/-- `read(index)` of R17: the storage cell, 0 for index 0. -/
def State.readCell (s : State) (i : RegIdx) : Word := if i = 0 then 0 else s.regs[i.toNat]

/-- `read_sign_extended(index)` of R18. -/
def State.readSignExtended (s : State) (i : RegIdx) : Word :=
  if s.w32 then signExtendAt (s.readCell i) 31 else s.readCell i

/-- `x[i]` of R17: the cell's low `XLEN` bits. -/
def State.x (s : State) (i : RegIdx) : Word := s.trunc (s.readCell i)

/-- `sx[i]` of R18, as a 64-bit vector. -/
def State.sx (s : State) (i : RegIdx) : Word := s.readSignExtended i

/-- `write(index, value)` of R19: masked to the width mode, ignored for index 0. -/
def State.writeReg (s : State) (i : RegIdx) (v : Word) : State :=
  if i = 0 then s else { s with regs := s.regs.set i.toNat (s.trunc v) }

/-! ### Taking a fault (R221, R226)

The one operation by which every fault is taken. `s` is the state before the step or host operation began (of a
step: with its trace line already emitted, which R226 excepts). There is no return from a fault: only reset clears
the latch (R227). -/

/-- `FAULT <- (code of F, info)`, and nothing else. -/
def State.raise (s : State) (f : Fault) : State := { s with fault := some f }

/-- The numeric code of R220. -/
def Fault.code : Fault → Nat
  | .fetchBounds _ => 1
  | .decode _ _ => 2
  | .memBounds _ _ _ _ => 3
  | .pcAlign _ => 4
  | .pcIncrement _ => 5

/-! ### The program counter (R21 to R24) -/

/-- `pc` of R21: the cell's low `XLEN` bits. -/
def State.pcX (s : State) : Word := s.trunc s.pc

/-- `write_pc(value)` of R22. -/
def State.writePc (s : State) (v : Word) : State := { s with pc := s.trunc v }

/-- `offset_pc(signed_delta)` of R23. -/
def State.offsetPc (s : State) (delta : Word) : State := s.writePc (s.pc + delta)

/-- `increment_pc(size)` of R24: an odd size is the fatal `PcIncrementFault`. -/
def State.incrementPc (s : State) (size : Word) : State :=
  if size.getLsbD 0 then s.raise (.pcIncrement size) else s.offsetPc size

/-! ### The access primitives (R44 to R46) -/

/-- `MemRead(addr, n)` of R44, zero-extended; `none` is its bounds fault. The condition is the pseudocode's
`addr + n > MEM_LEN` and no other. Where `MEM_LEN` exceeds 2^`XLEN`, R44's sentence on an access past 2^`XLEN` - 1 says more than
its pseudocode and C5 do: that such an access succeeds is a DESIGN CHOICE, unsafe (log 20). -/
def State.memRead (s : State) (addr : Word) (size : AccessSize) : Option Word :=
  if s.mem.inBounds addr.toNat size.bytes then some (s.mem.readLE addr.toNat size.bytes) else none

/-- `MemWrite(addr, n, v)` of R45; `none` is its bounds fault, checked before any byte is written. For an access past
2^`XLEN` - 1 the DESIGN CHOICE of `State.memRead` holds here too (log 20). -/
def State.memWrite (s : State) (addr : Word) (size : AccessSize) (v : Word) : Option State :=
  if s.mem.inBounds addr.toNat size.bytes then some { s with mem := s.mem.writeLE addr.toNat size.bytes v } else none

/-- `CodeRead(addr)` of R46; `none` is its bounds fault. -/
def State.codeRead (s : State) (addr : Word) : Option InstrWord :=
  if s.code.inBounds addr.toNat 4 then some ((s.code.readLE addr.toNat 4).setWidth 32) else none

/-! ### How an instruction ends (R26, R194) -/

/-- The pc change of every instruction that does not branch: `increment_pc(4)`. -/
def State.advance (s : State) : State := s.incrementPc 4

/-- Write the result, then advance (R100); with `rd` = 0 only the pc moves (the hint path). -/
def State.complete (s : State) (rd : RegIdx) (result : Word) : Host.Outcome State Fault Refusal :=
  .next (s.writeReg rd result).advance

/-- The text written to the trace sink for a line (R203): opaque, no state depends on it (log 8). -/
def TraceLine.text (line : TraceLine) : String := Config.traceText line.word line.instr

/-- `trace` stage of a step (R193): one line when `TRACE` = 1. -/
def State.emitTrace (s : State) (i : Instr) : State :=
  if s.trace then { s with sink := s.sink ++ [{ word := encodeWord i, instr := i }] } else s

end Sys2Proof.Machine
end

