-- ==== Sys2Proof/Machine/Operands.lean ====
section
/-! DEFINITION. The operand forms: immediates extended at execute (spec/30_encoding.md R63), shift amounts
(spec/40_int_imm.md R101, spec/41_int_reg.md R121) and the effective address (spec/43_load_store.md R160). -/

namespace Sys2Proof.Machine

/-- `trunc_XLEN(sext_12(immI))`. -/
def State.immI (s : State) (imm : BitVec 12) : Word := s.trunc (sext imm)

/-- `trunc_XLEN(sext_12(immS))`. -/
def State.immS (s : State) (imm : BitVec 12) : Word := s.trunc (sext imm)

/-- `sext_13(immB)`, the branch offset (R143). -/
def offsetB (imm : BitVec 13) : Word := sext imm

/-- `sext_21(immJ)`, the jump offset (R141). -/
def offsetJ (imm : BitVec 21) : Word := sext imm

/-- `trunc_XLEN(sext_32(immU))` (R111, R112). -/
def State.immU (s : State) (imm : BitVec 32) : Word := s.trunc (sext imm)

/-- `a & (XLEN - 1)`: 5 bits in 32-bit mode, 6 bits in native mode (R101). -/
def State.shiftAmount (s : State) (a : Word) : Nat :=
  if s.w32 then (a &&& 0x1F).toNat else (a &&& 0x3F).toNat

/-- The amount of SLLI, SRLI, SRAI: the decoded field, never sign-extended (R101). -/
def State.shamtImm (s : State) (shamt : BitVec 6) : Nat := s.shiftAmount (shamt.setWidth 64)

/-- The amount of SLL, SRL, SRA (R121). -/
def State.shamtReg (s : State) (rs2 : RegIdx) : Nat := s.shiftAmount (s.x rs2)

/-- `EA(rs1, imm12)` of R160 for a load: wraps modulo 2^`XLEN` (D8). -/
def State.loadAddr (s : State) (rs1 : RegIdx) (imm : BitVec 12) : Word := s.trunc (s.x rs1 + s.immI imm)

/-- `EA(rs1, imm12)` of R160 for a store. -/
def State.storeAddr (s : State) (rs1 : RegIdx) (imm : BitVec 12) : Word := s.trunc (s.x rs1 + s.immS imm)

end Sys2Proof.Machine
end

