-- ==== Sys2Proof/Machine/Flags.lean ====
section
/-! DEFINITION. The core has no status flags, condition codes or predicates (spec/10_state.md R27). What stands here
are the comparisons that the set-less-than instructions and the branches make (R103, R104, R125, R126, R144 to R149). -/

namespace Sys2Proof.Machine

/-- `x[a] == x[b]`. -/
def State.condEq (s : State) (a b : RegIdx) : Bool := s.x a == s.x b

/-- `sx[a] < sx[b]`, of the signed readings (R18). -/
def State.condLt (s : State) (a b : RegIdx) : Bool := (s.sx a).slt (s.sx b)

/-- `x[a] <u x[b]`. -/
def State.condLtu (s : State) (a b : RegIdx) : Bool := (s.x a).ult (s.x b)

/-- `sx[a] < signed_12(imm)` (R103). -/
def State.condLtImm (s : State) (a : RegIdx) (imm : BitVec 12) : Bool := (s.sx a).slt (sext imm)

/-- `x[a] <u trunc_XLEN(sext_12(imm))` (R104). -/
def State.condLtuImm (s : State) (a : RegIdx) (imm : BitVec 12) : Bool := (s.x a).ult (s.immI imm)

/-- The integer 0 or 1 of a comparison (R113). -/
def boolWord (b : Bool) : Word := if b then 1 else 0

end Sys2Proof.Machine
end

