-- ==== Sys2Proof/Machine/Control.lean ====
section
/-! DEFINITION. Control transfer (spec/42_control.md R140 to R149). No target is checked: neither alignment nor the
code buffer's length (R140). -/

namespace Sys2Proof.Machine

/-- The return address `pc + 4` (R140). -/
def State.link (s : State) : Word := s.pcX + 4

/-- The common rule of the branches (R143): the offset is added to the address of the branch itself. -/
def State.branch (s : State) (taken : Bool) (immB : BitVec 13) : Host.Outcome State Fault Refusal :=
  if taken then .next (s.offsetPc (offsetB immB)) else .next s.advance

/-- The target of JALR: the sum, its bit 0 cleared (R142). -/
def State.jalrTarget (s : State) (rs1 : RegIdx) (immI : BitVec 12) : Word := (s.x rs1 + s.immI immI) &&& ~~~1

/-- JAL (R141). -/
def execJal (rd : RegIdx) (immJ : BitVec 21) (s : State) : Host.Outcome State Fault Refusal :=
  .next ((s.writeReg rd s.link).offsetPc (offsetJ immJ))

/-- JALR (R142): the target is computed from `s`, before the link is written. -/
def execJalr (rd rs1 : RegIdx) (immI : BitVec 12) (s : State) : Host.Outcome State Fault Refusal :=
  .next ((s.writeReg rd s.link).writePc (s.jalrTarget rs1 immI))

/-- BEQ (R144). -/
def execBeq (rs1 rs2 : RegIdx) (immB : BitVec 13) (s : State) : Host.Outcome State Fault Refusal :=
  s.branch (s.condEq rs1 rs2) immB

/-- BNE (R145). -/
def execBne (rs1 rs2 : RegIdx) (immB : BitVec 13) (s : State) : Host.Outcome State Fault Refusal :=
  s.branch (!s.condEq rs1 rs2) immB

/-- BLT (R146). -/
def execBlt (rs1 rs2 : RegIdx) (immB : BitVec 13) (s : State) : Host.Outcome State Fault Refusal :=
  s.branch (s.condLt rs1 rs2) immB

/-- BGE (R147). -/
def execBge (rs1 rs2 : RegIdx) (immB : BitVec 13) (s : State) : Host.Outcome State Fault Refusal :=
  s.branch (!s.condLt rs1 rs2) immB

/-- BLTU (R148). -/
def execBltu (rs1 rs2 : RegIdx) (immB : BitVec 13) (s : State) : Host.Outcome State Fault Refusal :=
  s.branch (s.condLtu rs1 rs2) immB

/-- BGEU (R149). -/
def execBgeu (rs1 rs2 : RegIdx) (immB : BitVec 13) (s : State) : Host.Outcome State Fault Refusal :=
  s.branch (!s.condLtu rs1 rs2) immB

end Sys2Proof.Machine
end

