-- ==== Sys2Proof/Machine/Fence.lean ====
section
/-! DEFINITION. The fences (spec/44_fence_system.md R180 to R182): they order nothing, because nothing is ever out of
order (spec/20_memory.md R50, R51), and only the pc advances. The operand fields are not used. -/

namespace Sys2Proof.Machine

/-- FENCE (R181). -/
def execFence (_rd _rs1 : RegIdx) (_immI : BitVec 12) (s : State) : Host.Outcome State Fault Refusal :=
  .next s.advance

/-- FENCE.I (R182). -/
def execFenceI (_rd _rs1 : RegIdx) (_immI : BitVec 12) (s : State) : Host.Outcome State Fault Refusal :=
  .next s.advance

end Sys2Proof.Machine
end

