-- ==== Sys2Proof/Machine/IntImm.lean ====
section
/-! DEFINITION. Register-immediate and upper-immediate instructions (spec/40_int_imm.md R100 to R113). -/

namespace Sys2Proof.Machine

/-- LUI (R111). -/
def execLui (rd : RegIdx) (immU : BitVec 32) (s : State) : Host.Outcome State Fault Refusal :=
  s.complete rd (s.immU immU)

/-- AUIPC (R112): `pc` is the address of the AUIPC itself. -/
def execAuipc (rd : RegIdx) (immU : BitVec 32) (s : State) : Host.Outcome State Fault Refusal :=
  s.complete rd (s.pcX + s.immU immU)

/-- ADDI (R102). -/
def execAddi (rd rs1 : RegIdx) (immI : BitVec 12) (s : State) : Host.Outcome State Fault Refusal :=
  s.complete rd (s.x rs1 + s.immI immI)

/-- SLTI (R103). -/
def execSlti (rd rs1 : RegIdx) (immI : BitVec 12) (s : State) : Host.Outcome State Fault Refusal :=
  s.complete rd (boolWord (s.condLtImm rs1 immI))

/-- SLTIU (R104). -/
def execSltiu (rd rs1 : RegIdx) (immI : BitVec 12) (s : State) : Host.Outcome State Fault Refusal :=
  s.complete rd (boolWord (s.condLtuImm rs1 immI))

/-- XORI (R105). -/
def execXori (rd rs1 : RegIdx) (immI : BitVec 12) (s : State) : Host.Outcome State Fault Refusal :=
  s.complete rd (s.x rs1 ^^^ s.immI immI)

/-- ORI (R106). -/
def execOri (rd rs1 : RegIdx) (immI : BitVec 12) (s : State) : Host.Outcome State Fault Refusal :=
  s.complete rd (s.x rs1 ||| s.immI immI)

/-- ANDI (R107). -/
def execAndi (rd rs1 : RegIdx) (immI : BitVec 12) (s : State) : Host.Outcome State Fault Refusal :=
  s.complete rd (s.x rs1 &&& s.immI immI)

/-- SLLI (R108). -/
def execSlli (rd rs1 : RegIdx) (shamt : BitVec 6) (s : State) : Host.Outcome State Fault Refusal :=
  s.complete rd (s.x rs1 <<< s.shamtImm shamt)

/-- SRLI (R109). -/
def execSrli (rd rs1 : RegIdx) (shamt : BitVec 6) (s : State) : Host.Outcome State Fault Refusal :=
  s.complete rd (s.x rs1 >>> s.shamtImm shamt)

/-- SRAI (R110): of the sign-extended read. -/
def execSrai (rd rs1 : RegIdx) (shamt : BitVec 6) (s : State) : Host.Outcome State Fault Refusal :=
  s.complete rd ((s.sx rs1).sshiftRight (s.shamtImm shamt))

end Sys2Proof.Machine
end

