-- ==== Sys2Proof/Machine/IntReg.lean ====
section
/-! DEFINITION. Register-register instructions (spec/41_int_reg.md R120 to R131). -/

namespace Sys2Proof.Machine

/-- ADD (R122). -/
def execAdd (rd rs1 rs2 : RegIdx) (s : State) : Host.Outcome State Fault Refusal :=
  s.complete rd (s.x rs1 + s.x rs2)

/-- SUB (R123). -/
def execSub (rd rs1 rs2 : RegIdx) (s : State) : Host.Outcome State Fault Refusal :=
  s.complete rd (s.x rs1 - s.x rs2)

/-- SLL (R124). -/
def execSll (rd rs1 rs2 : RegIdx) (s : State) : Host.Outcome State Fault Refusal :=
  s.complete rd (s.x rs1 <<< s.shamtReg rs2)

/-- SLT (R125). -/
def execSlt (rd rs1 rs2 : RegIdx) (s : State) : Host.Outcome State Fault Refusal :=
  s.complete rd (boolWord (s.condLt rs1 rs2))

/-- SLTU (R126). -/
def execSltu (rd rs1 rs2 : RegIdx) (s : State) : Host.Outcome State Fault Refusal :=
  s.complete rd (boolWord (s.condLtu rs1 rs2))

/-- XOR (R127). -/
def execXor (rd rs1 rs2 : RegIdx) (s : State) : Host.Outcome State Fault Refusal :=
  s.complete rd (s.x rs1 ^^^ s.x rs2)

/-- SRL (R128). -/
def execSrl (rd rs1 rs2 : RegIdx) (s : State) : Host.Outcome State Fault Refusal :=
  s.complete rd (s.x rs1 >>> s.shamtReg rs2)

/-- SRA (R129): of the sign-extended read. -/
def execSra (rd rs1 rs2 : RegIdx) (s : State) : Host.Outcome State Fault Refusal :=
  s.complete rd ((s.sx rs1).sshiftRight (s.shamtReg rs2))

/-- OR (R130). -/
def execOr (rd rs1 rs2 : RegIdx) (s : State) : Host.Outcome State Fault Refusal :=
  s.complete rd (s.x rs1 ||| s.x rs2)

/-- AND (R131). -/
def execAnd (rd rs1 rs2 : RegIdx) (s : State) : Host.Outcome State Fault Refusal :=
  s.complete rd (s.x rs1 &&& s.x rs2)

end Sys2Proof.Machine
end

