-- ==== Sys2Proof/Machine/LoadStore.lean ====
section
/-! DEFINITION. Loads and stores (spec/43_load_store.md R160 to R171). -/

namespace Sys2Proof.Machine

/-- The extension of a loaded value "to the full register width" (R162): signed from its top bit, or zero. -/
def loadExtend (size : AccessSize) (signed : Bool) (v : Word) : Word :=
  if signed then signExtendAt v (8 * size.bytes - 1) else v

/-- The common rule of the loads (R162). With `rd` = 0 only the register write is dropped (R161, D19). -/
def State.load (s : State) (size : AccessSize) (signed : Bool) (rd rs1 : RegIdx) (immI : BitVec 12) :
    Host.Outcome State Fault Refusal :=
  match s.memRead (s.loadAddr rs1 immI) size with
  | some v => s.complete rd (loadExtend size signed v)
  | none => .next (s.raise (.memBounds s.pcX (s.loadAddr rs1 immI) size .read))

/-- The common rule of the stores (R168): the low bytes of `x[rs2]`. -/
def State.store (s : State) (size : AccessSize) (rs1 rs2 : RegIdx) (immS : BitVec 12) :
    Host.Outcome State Fault Refusal :=
  match s.memWrite (s.storeAddr rs1 immS) size (s.x rs2) with
  | some t => .next t.advance
  | none => .next (s.raise (.memBounds s.pcX (s.storeAddr rs1 immS) size .write))

/-- LB (R163). -/
def execLb (rd rs1 : RegIdx) (immI : BitVec 12) (s : State) : Host.Outcome State Fault Refusal :=
  s.load .byte true rd rs1 immI

/-- LH (R164). -/
def execLh (rd rs1 : RegIdx) (immI : BitVec 12) (s : State) : Host.Outcome State Fault Refusal :=
  s.load .half true rd rs1 immI

/-- LW (R165). -/
def execLw (rd rs1 : RegIdx) (immI : BitVec 12) (s : State) : Host.Outcome State Fault Refusal :=
  s.load .word true rd rs1 immI

/-- LBU (R166). -/
def execLbu (rd rs1 : RegIdx) (immI : BitVec 12) (s : State) : Host.Outcome State Fault Refusal :=
  s.load .byte false rd rs1 immI

/-- LHU (R167). -/
def execLhu (rd rs1 : RegIdx) (immI : BitVec 12) (s : State) : Host.Outcome State Fault Refusal :=
  s.load .half false rd rs1 immI

/-- SB (R169). -/
def execSb (rs1 rs2 : RegIdx) (immS : BitVec 12) (s : State) : Host.Outcome State Fault Refusal :=
  s.store .byte rs1 rs2 immS

/-- SH (R170). -/
def execSh (rs1 rs2 : RegIdx) (immS : BitVec 12) (s : State) : Host.Outcome State Fault Refusal :=
  s.store .half rs1 rs2 immS

/-- SW (R171). -/
def execSw (rs1 rs2 : RegIdx) (immS : BitVec 12) (s : State) : Host.Outcome State Fault Refusal :=
  s.store .word rs1 rs2 immS

end Sys2Proof.Machine
end

