-- ==== Sys2Proof/Machine/Engine.lean ====
section
/-! DEFINITION. The fetch-decode-execute cycle (spec/45_engine.md R190 to R195, R206). -/

namespace Sys2Proof.Machine

/-- The stages after a successful decode: trace (R193), then execute (R194). -/
def runDecoded (i : Instr) (s : State) : Host.Outcome State Fault Refusal := exec i (s.emitTrace i)

/-- The decode stage (R192): "no decode" is the fatal `DecodeFault`, and no line is emitted. -/
def runWord (w : InstrWord) (s : State) : Host.Outcome State Fault Refusal :=
  match decode w with
  | .instr i => runDecoded i s
  | .reject _ => .next (s.raise (.decode s.pcX w))

/-- `step()` of R190: the stages in their order (R224). While `FAULT` is latched it does nothing (R226). -/
def engineStep (s : State) : Host.Outcome State Fault Refusal :=
  match s.fault with
  | some _ => .next s
  | none =>
    match s.codeRead s.pcX with
    | none => .next (s.raise (.fetchBounds s.pcX))
    | some w => runWord w s

/-- `run(count)` of R195: it stops early if `FAULT` is latched. The unbounded run has no end of its own (R206; log 13). -/
def runCount : Nat → State → Host.Outcome State Fault Refusal
  | 0, s => .next s
  | k + 1, s =>
    match s.fault with
    | some _ => .next s
    | none =>
      match engineStep s with
      | .next t => runCount k t
      | .fault r => .fault r
      | .refused r => .refused r

/-- The low `nbits` bits of `w`, as an instruction word, in the code buffer at the pc, the buffer made long enough
for the fetch there, and the fault latch clear: what `load_code` and reset do for a program (R197, R227; log 14). -/
def State.placeWord (s : State) (nbits w : Nat) : State :=
  let pc := s.pcX.toNat
  let grown : Memory := { s.code with len := max s.code.len (pc + 4) }
  { s with code := grown.writeLE pc 4 (BitVec.ofNat 64 (w % 2 ^ nbits % 2 ^ 32)), fault := none }

end Sys2Proof.Machine
end

