-- ==== Sys2Proof/Machine/Step.lean ====
section
/-! DEFINITION. One step of the core (spec/45_engine.md R190), and the placing of an instruction word where the next
step fetches it. Both only call Engine.lean. -/

namespace Sys2Proof.Machine

/-- One step (R190): `engineStep` in Engine.lean. -/
def step (s : State) : Host.Outcome State Fault Refusal := engineStep s

/-- `s` with the low `nbits` bits of `w` stored where `step` fetches next (log 14). -/
def State.withFetchWord (s : State) (nbits w : Nat) : State := s.placeWord nbits w

end Sys2Proof.Machine
end

