-- ==== Sys2Proof/Machine/HostOps.lean ====
section
/-! DEFINITION. What the host does between steps (spec/45_engine.md R196 to R202, R205; spec/10_state.md R25;
spec/60_exceptions.md R227; spec/70_reset_and_hazards.md R250). Its reads are the functions
`State.readCell`, `State.readSignExtended`, the fields of State, and `State.hostReadMem`. -/

namespace Sys2Proof.Machine

/-- The host operations that change state. -/
inductive HostOp where
  /-- `load_code(bytes)` (R197). -/
  | loadCode (bytes : List Byte)
  /-- `set_pc(address)` (R198). -/
  | setPc (address : Word)
  /-- `write(index, value)` (R199, R19). -/
  | writeReg (i : RegIdx) (v : Word)
  /-- `write_pc(value)` (R199, R22): no evenness check. -/
  | writePc (v : Word)
  /-- `offset_pc(signed_delta)` (R199, R23). -/
  | offsetPc (delta : Word)
  /-- `increment_pc(size)` (R199, R24). -/
  | incrementPc (size : Word)
  /-- `host_write_mem(addr, bytes)` (R200). -/
  | writeMem (addr : Nat) (bytes : List Byte)
  /-- `set_width_mode(is_32_bit)` (R201, R25). -/
  | setWidthMode (is32 : Bool)
  /-- Set or clear the trace flag (R202). -/
  | setTrace (on : Bool)
  /-- "Activate base ISA by name" (R205), by its effect on the core. -/
  | activateIsa (name : String)
  /-- Reset, with the launch parameters (R250). -/
  | reset (w32 : Bool) (mem : Memory)
  deriving DecidableEq, Repr

/-- `load_code(bytes)` of R197: "replaces the code buffer"; it changes nothing else and cannot fail. -/
def State.loadCode (s : State) (bytes : List Byte) : State := { s with code := Memory.ofBytes bytes }

/-- `set_pc(address)` of R198: an odd address is the fatal `PcAlignFault`. -/
def State.setPc (s : State) (address : Word) : State :=
  if address.getLsbD 0 then s.raise (.pcAlign address) else s.writePc address

/-- `set_width_mode(is_32_bit)` of R25: narrowing truncates every cell and the pc (D9), widening changes no cell. -/
def State.setWidthMode (s : State) (is32 : Bool) : State :=
  if is32 && !s.w32 then
    { s with regs := Vector.ofFn fun i : Fin 32 => low32 s.regs[i], pc := low32 s.pc, w32 := true }
  else { s with w32 := is32 }

/-- The trace flag (R202). -/
def State.setTrace (s : State) (on : Bool) : State := { s with trace := on }

/-- What R205 returns to the caller: true when the name is recognised, false for the failure. -/
def isaRecognised (name : String) : Bool := (Config.isaNameWidth name).isSome

/-- R205: a recognised name sets its width; for another "the engine's prior configuration remains unchanged". -/
def State.activateIsa (s : State) (name : String) : State :=
  match Config.isaNameWidth name with
  | some is32 => s.setWidthMode is32
  | none => s

/-- `host_read_mem(addr, n)` of R200, inside the bounds of `MEM`. -/
def State.hostReadMem (s : State) (addr n : Nat) : Option (List Byte) :=
  if s.mem.inBounds addr n then some (s.mem.bytesAt addr n) else none

/-- `host_write_mem(addr, bytes)` of R200, inside the bounds of `MEM`. -/
def State.hostWriteMem (s : State) (addr : Nat) (bytes : List Byte) : Option State :=
  if s.mem.inBounds addr bytes.length then some { s with mem := s.mem.setBytes addr bytes } else none

/-- The effect of an operation on a core whose `FAULT` is none. -/
def performRunning (op : HostOp) (s : State) : Host.Outcome State Fault Refusal :=
  match op with
  | .loadCode bytes => .next (s.loadCode bytes)
  | .setPc address => .next (s.setPc address)
  | .writeReg i v => .next (s.writeReg i v)
  | .writePc v => .next (s.writePc v)
  | .offsetPc delta => .next (s.offsetPc delta)
  | .incrementPc size => .next (s.incrementPc size)
  | .writeMem addr bytes =>
    match s.hostWriteMem addr bytes with
    | some t => .next t
    | none => .refused .hostMemOutOfBounds
  | .setWidthMode is32 => .next (s.setWidthMode is32)
  | .setTrace on => .next (s.setTrace on)
  | .activateIsa name => .next (s.activateIsa name)
  | .reset w32 mem => .next (State.launch w32 mem)

/-- A host operation. On a faulted core only reset acts; every other operation is a no-op (R227, D24). -/
def perform (op : HostOp) (s : State) : Host.Outcome State Fault Refusal :=
  match op, s.fault with
  | .reset w32 mem, _ => .next (State.launch w32 mem)
  | _, some _ => .next s
  | op, none => performRunning op s

end Sys2Proof.Machine
end

