-- ==== Sys2Proof/Safety.lean ====
section
/-! DEFINITION. What counts as a sound state, in the terms the statements use: the invariants the spec states of the
state (spec/10_state.md R11, R14, R26) and the canonical form of the buffers. -/

namespace Sys2Proof

open Machine

/-- The cell holds a 32-bit value, zero-extended. -/
def narrow (v : Word) : Bool := decide (v.toNat < 2 ^ 32)

/-- The invariant of the core. -/
structure Inv (s : State) : Prop where
  /-- `X[0]` = 0 always (R11). -/
  zeroReg : s.regs[0] = 0
  /-- In 32-bit mode `X[i][63:32]` = 0 for every `i` (R14). -/
  narrowRegs : s.w32 = true → ∀ i : Fin 32, narrow s.regs[i] = true
  /-- In 32-bit mode `PC[63:32]` = 0 (R14). -/
  narrowPc : s.w32 = true → narrow s.pc = true
  /-- `MEM` is in its canonical form. -/
  memWf : s.mem.wf = true
  /-- `CODE` is in its canonical form. -/
  codeWf : s.code.wf = true

/-- The pc is even (R26). Only the raw host primitives `write_pc` and `offset_pc` can end it (D10). -/
def PcEven (s : State) : Prop := s.pc.getLsbD 0 = false

end Sys2Proof
end

