-- ==== Sys2Proof/Certificates/Slice0/Obligations.lean ====
section
/-! DEFINITION. The statements for the provers, and the words they are said in. Results are stated on `XLEN`-bit vectors, a
32-bit formula and a 64-bit formula for each instruction (spec/10_state.md R15, R16), not in the model's own functions.
Addresses stored to are computed by the function the meaning uses (`State.storeAddr`), which has a statement of its own. -/

namespace Sys2Proof.Claims

open Machine

/-! ### Vocabulary -/

/-- `x[i]` as a 32-bit vector. -/
def reg32 (s : State) (i : RegIdx) : BitVec 32 := (s.readCell i).setWidth 32
/-- `x[i]` as a 64-bit vector. -/
def reg64 (s : State) (i : RegIdx) : BitVec 64 := s.readCell i
/-- `pc` as a 32-bit vector. -/
def pc32 (s : State) : BitVec 32 := s.pc.setWidth 32
/-- `pc` as a 64-bit vector. -/
def pc64 (s : State) : BitVec 64 := s.pc
/-- What a cell holds after a write of the `XLEN`-bit result (R19, R22): `v32` zero-extended, or `v64`. -/
def byWidth (s : State) (v32 : BitVec 32) (v64 : BitVec 64) : Word := if s.w32 then v32.setWidth 64 else v64
/-- `pc + 4` modulo 2^`XLEN`. -/
def nextPc (s : State) : Word := byWidth s (pc32 s + 4) (pc64 s + 4)
/-- The comparison result as a vector. -/
def bit32 (b : Bool) : BitVec 32 := if b then 1 else 0
/-- The comparison result as a vector. -/
def bit64 (b : Bool) : BitVec 64 := if b then 1 else 0

/-- Width mode, trace flag, fault latch, code buffer and trace output are unchanged. -/
def RestSame (s t : State) : Prop :=
  t.w32 = s.w32 ∧ t.trace = s.trace ∧ t.fault = s.fault ∧ t.code = s.code ∧ t.sink = s.sink
/-- Every byte of memory, and its length, is unchanged. -/
def MemSame (s t : State) : Prop := t.mem.len = s.mem.len ∧ ∀ a, t.mem.byteAt a = s.mem.byteAt a
/-- Every register but `rd` is unchanged. -/
def RegsSameBut (rd : RegIdx) (s t : State) : Prop := ∀ j, j ≠ rd → t.readCell j = s.readCell j
/-- Every register is unchanged. -/
def RegsSame (s t : State) : Prop := ∀ j, t.readCell j = s.readCell j

/-- The instruction's word has this opcode and `funct3`. -/
def Encoded (i : Instr) (opcode : BitVec 7) (funct3 : BitVec 3) : Prop :=
  (encodeWord i).extractLsb' 0 7 = opcode ∧ (encodeWord i).extractLsb' 12 3 = funct3
/-- The instruction's word has this opcode, `funct3` and `funct7`. -/
def EncodedR (i : Instr) (opcode : BitVec 7) (funct3 : BitVec 3) (funct7 : BitVec 7) : Prop :=
  Encoded i opcode funct3 ∧ (encodeWord i).extractLsb' 25 7 = funct7
/-- The instruction's word has this opcode, `funct3` and `w[31:26]`. -/
def EncodedShift (i : Instr) (opcode : BitVec 7) (funct3 : BitVec 3) (funct6 : BitVec 6) : Prop :=
  Encoded i opcode funct3 ∧ (encodeWord i).extractLsb' 26 6 = funct6

/-- The contract of R100: from every state the instruction completes, `rd` holds the result (register 0 holds 0), the pc
advances by 4, and nothing else changes. -/
def WritesReg (i : Instr) (rd : RegIdx) (v32 : State → BitVec 32) (v64 : State → BitVec 64) : Prop :=
  ∀ s : State, ∃ t : State, exec i s = .next t ∧
    t.readCell rd = (if rd = 0 then 0 else byWidth s (v32 s) (v64 s)) ∧
    t.pc = nextPc s ∧ RegsSameBut rd s t ∧ RestSame s t ∧ MemSame s t

/-- The common rule of the branches (R143): from every state the branch completes, the pc moves by the offset when the
condition holds and by 4 otherwise, and nothing else changes. -/
def BranchRule (i : Instr) (immB : BitVec 13) (c32 c64 : State → Bool) : Prop :=
  ∀ s : State, ∃ t : State, exec i s = .next t ∧
    t.pc = (if (if s.w32 then c32 s else c64 s) then
        byWidth s (pc32 s + immB.signExtend 32) (pc64 s + immB.signExtend 64) else nextPc s) ∧
    RegsSame s t ∧ RestSame s t ∧ MemSame s t

/-- The effective address of R160 as a natural number. -/
def ea (s : State) (rs1 : RegIdx) (imm : BitVec 12) : Nat :=
  if s.w32 then (reg32 s rs1 + imm.signExtend 32).toNat else (reg64 s rs1 + imm.signExtend 64).toNat
/-- Two bytes of a buffer, little-endian. -/
def le16 (m : Memory) (a : Nat) : BitVec 16 := placeAt 16 (m.byteAt a) 0 ||| placeAt 16 (m.byteAt (a + 1)) 8
/-- Four bytes of a buffer, little-endian. -/
def le32 (m : Memory) (a : Nat) : BitVec 32 :=
  placeAt 32 (m.byteAt a) 0 ||| placeAt 32 (m.byteAt (a + 1)) 8 ||| placeAt 32 (m.byteAt (a + 2)) 16 |||
    placeAt 32 (m.byteAt (a + 3)) 24

/-- The common rule of the loads (R161, R162): in bounds the load completes, `rd` holds the extended value and nothing
else but the pc changes; out of bounds `MemBoundsFault` is latched and nothing else changes, whatever `rd` is. -/
def LoadRule (i : Instr) (size : AccessSize) (rd rs1 : RegIdx) (immI : BitVec 12)
    (v32 : State → Nat → BitVec 32) (v64 : State → Nat → BitVec 64) : Prop :=
  ∀ s : State,
    (ea s rs1 immI + size.bytes ≤ s.mem.len → ∃ t : State, exec i s = .next t ∧
      t.readCell rd = (if rd = 0 then 0 else byWidth s (v32 s (ea s rs1 immI)) (v64 s (ea s rs1 immI))) ∧
      t.pc = nextPc s ∧ RegsSameBut rd s t ∧ RestSame s t ∧ MemSame s t) ∧
    (s.mem.len < ea s rs1 immI + size.bytes → exec i s =
      .next { s with fault := some (.memBounds s.pcX (s.loadAddr rs1 immI) size .read) })

/-- The common rule of the stores (R161, R168), at the address the meaning computes: in bounds the store completes, byte
`k` of the register stands at address `a + k`, every other byte and everything else but the pc is unchanged; out of
bounds `MemBoundsFault` is latched and nothing else changes. -/
def StoreRule (i : Instr) (size : AccessSize) (rs1 rs2 : RegIdx) (immS : BitVec 12) : Prop :=
  ∀ s : State, ∀ a : Nat, (s.storeAddr rs1 immS).toNat = a →
    (a + size.bytes ≤ s.mem.len → ∃ t : State, exec i s = .next t ∧
      (∀ k, k < size.bytes → t.mem.byteAt (a + k) = (reg64 s rs2).extractLsb' (8 * k) 8) ∧
      (∀ x, x < a ∨ a + size.bytes ≤ x → t.mem.byteAt x = s.mem.byteAt x) ∧
      t.mem.len = s.mem.len ∧ t.pc = nextPc s ∧ RegsSame s t ∧ RestSame s t) ∧
    (s.mem.len < a + size.bytes → exec i s =
      .next { s with fault := some (.memBounds s.pcX (s.storeAddr rs1 immS) size .write) })

/-- The destination register of the formats that have an `rd` which the instruction writes. -/
def destOf : Instr → Option RegIdx
  | .lui rd _ | .auipc rd _ | .jal rd _ | .jalr rd _ _ => some rd
  | .lb rd _ _ | .lh rd _ _ | .lw rd _ _ | .lbu rd _ _ | .lhu rd _ _ => some rd
  | .addi rd _ _ | .slti rd _ _ | .sltiu rd _ _ | .xori rd _ _ | .ori rd _ _ | .andi rd _ _ => some rd
  | .slli rd _ _ | .srli rd _ _ | .srai rd _ _ => some rd
  | .add rd _ _ | .sub rd _ _ | .sll rd _ _ | .slt rd _ _ | .sltu rd _ _ => some rd
  | .xor rd _ _ | .srl rd _ _ | .sra rd _ _ | .or rd _ _ | .and rd _ _ => some rd
  | .beq _ _ _ | .bne _ _ _ | .blt _ _ _ | .bge _ _ _ | .bltu _ _ _ | .bgeu _ _ _ => none
  | .sb _ _ _ | .sh _ _ _ | .sw _ _ _ => none
  | .fence _ _ _ | .fenceI _ _ _ => none

/-- The register-register, register-immediate and upper-immediate instructions, whose forms with `rd` = 0 are hints (R80). -/
def hasHintForm : Instr → Bool
  | .lui _ _ | .auipc _ _ => true
  | .addi _ _ _ | .slti _ _ _ | .sltiu _ _ _ | .xori _ _ _ | .ori _ _ _ | .andi _ _ _ => true
  | .slli _ _ _ | .srli _ _ _ | .srai _ _ _ => true
  | .add _ _ _ | .sub _ _ _ | .sll _ _ _ | .slt _ _ _ | .sltu _ _ _ => true
  | .xor _ _ _ | .srl _ _ _ | .sra _ _ _ | .or _ _ _ | .and _ _ _ => true
  | .jal _ _ | .jalr _ _ _ => false
  | .lb _ _ _ | .lh _ _ _ | .lw _ _ _ | .lbu _ _ _ | .lhu _ _ _ => false
  | .beq _ _ _ | .bne _ _ _ | .blt _ _ _ | .bge _ _ _ | .bltu _ _ _ | .bgeu _ _ _ => false
  | .sb _ _ _ | .sh _ _ _ | .sw _ _ _ => false
  | .fence _ _ _ | .fenceI _ _ _ => false

/-- The bytes a store writes when it completes: first address and number. -/
def storedRange : Instr → State → Option (Nat × Nat)
  | .sb rs1 _ immS, s => some ((s.storeAddr rs1 immS).toNat, 1)
  | .sh rs1 _ immS, s => some ((s.storeAddr rs1 immS).toNat, 2)
  | .sw rs1 _ immS, s => some ((s.storeAddr rs1 immS).toNat, 4)
  | _, _ => none

/-- The data address, size and direction of a load or store. -/
def accessOf : Instr → State → Option (Word × AccessSize × AccessDir)
  | .lb _ rs1 immI, s => some (s.loadAddr rs1 immI, .byte, .read)
  | .lh _ rs1 immI, s => some (s.loadAddr rs1 immI, .half, .read)
  | .lw _ rs1 immI, s => some (s.loadAddr rs1 immI, .word, .read)
  | .lbu _ rs1 immI, s => some (s.loadAddr rs1 immI, .byte, .read)
  | .lhu _ rs1 immI, s => some (s.loadAddr rs1 immI, .half, .read)
  | .sb rs1 _ immS, s => some (s.storeAddr rs1 immS, .byte, .write)
  | .sh rs1 _ immS, s => some (s.storeAddr rs1 immS, .half, .write)
  | .sw rs1 _ immS, s => some (s.storeAddr rs1 immS, .word, .write)
  | _, _ => none

/-- `rd`, `rs1`, `rs2` stand at `w[11:7]`, `w[19:15]`, `w[24:20]` (R61). -/
def RdAt (w : InstrWord) (rd : RegIdx) : Prop := ∀ j, j < 5 → rd.getLsbD j = w.getLsbD (7 + j)
/-- `w[19:15]`. -/
def Rs1At (w : InstrWord) (rs1 : RegIdx) : Prop := ∀ j, j < 5 → rs1.getLsbD j = w.getLsbD (15 + j)
/-- `w[24:20]`. -/
def Rs2At (w : InstrWord) (rs2 : RegIdx) : Prop := ∀ j, j < 5 → rs2.getLsbD j = w.getLsbD (20 + j)
/-- `w[31:20]` (R63). -/
def ImmIAt (w : InstrWord) (m : BitVec 12) : Prop := ∀ j, j < 12 → m.getLsbD j = w.getLsbD (20 + j)
/-- `w[25:20]` (R63). -/
def ShamtAt (w : InstrWord) (m : BitVec 6) : Prop := ∀ j, j < 6 → m.getLsbD j = w.getLsbD (20 + j)
/-- `w[31:25] ++ w[11:7]` (R63). -/
def ImmSAt (w : InstrWord) (m : BitVec 12) : Prop :=
  (∀ j, j < 5 → m.getLsbD j = w.getLsbD (7 + j)) ∧ (∀ j, 5 ≤ j → j < 12 → m.getLsbD j = w.getLsbD (20 + j))
/-- `w[31] ++ w[7] ++ w[30:25] ++ w[11:8] ++ 0` (R63). -/
def ImmBAt (w : InstrWord) (m : BitVec 13) : Prop :=
  m.getLsbD 0 = false ∧ (∀ j, 1 ≤ j → j < 5 → m.getLsbD j = w.getLsbD (7 + j)) ∧
  (∀ j, 5 ≤ j → j < 11 → m.getLsbD j = w.getLsbD (20 + j)) ∧ m.getLsbD 11 = w.getLsbD 7 ∧ m.getLsbD 12 = w.getLsbD 31
/-- `w[31:12] ++ 0x000` (R63). -/
def ImmUAt (w : InstrWord) (m : BitVec 32) : Prop :=
  (∀ j, j < 12 → m.getLsbD j = false) ∧ (∀ j, 12 ≤ j → j < 32 → m.getLsbD j = w.getLsbD j)
/-- `w[31] ++ w[19:12] ++ w[20] ++ w[30:21] ++ 0` (R63, R64). -/
def ImmJAt (w : InstrWord) (m : BitVec 21) : Prop :=
  m.getLsbD 0 = false ∧ (∀ j, 1 ≤ j → j < 11 → m.getLsbD j = w.getLsbD (20 + j)) ∧ m.getLsbD 11 = w.getLsbD 20 ∧
  (∀ j, 12 ≤ j → j < 20 → m.getLsbD j = w.getLsbD j) ∧ m.getLsbD 20 = w.getLsbD 31

/-- Every field of the instruction is read from the bits of its format (R61 to R63). -/
def FieldsFrom (w : InstrWord) : Instr → Prop
  | .lui rd m | .auipc rd m => RdAt w rd ∧ ImmUAt w m
  | .jal rd m => RdAt w rd ∧ ImmJAt w m
  | .jalr rd a m | .lb rd a m | .lh rd a m | .lw rd a m | .lbu rd a m | .lhu rd a m => RdAt w rd ∧ Rs1At w a ∧ ImmIAt w m
  | .addi rd a m | .slti rd a m | .sltiu rd a m | .xori rd a m | .ori rd a m | .andi rd a m =>
    RdAt w rd ∧ Rs1At w a ∧ ImmIAt w m
  | .fence rd a m | .fenceI rd a m => RdAt w rd ∧ Rs1At w a ∧ ImmIAt w m
  | .slli rd a m | .srli rd a m | .srai rd a m => RdAt w rd ∧ Rs1At w a ∧ ShamtAt w m
  | .beq a b m | .bne a b m | .blt a b m | .bge a b m | .bltu a b m | .bgeu a b m => Rs1At w a ∧ Rs2At w b ∧ ImmBAt w m
  | .sb a b m | .sh a b m | .sw a b m => Rs1At w a ∧ Rs2At w b ∧ ImmSAt w m
  | .add rd a b | .sub rd a b | .sll rd a b | .slt rd a b | .sltu rd a b => RdAt w rd ∧ Rs1At w a ∧ Rs2At w b
  | .xor rd a b | .srl rd a b | .sra rd a b | .or rd a b | .and rd a b => RdAt w rd ∧ Rs1At w a ∧ Rs2At w b

end Sys2Proof.Claims

open Sys2Proof Sys2Proof.Machine Sys2Proof.Claims

/-! ### Encoding -/

/-- Decode of encode is the instruction, for every representable instruction (R82 (a)); encode of decode is the word, for
every word that decodes. That the second holds "with no exclusion" is the spec's own inference ("[derived: from rules R63,
R66 to R76 and R81]"), and that `encode` is defined on representable instructions only is log 12. -/
def Obligations.DecodeAndEncodeAreInverse : Prop :=
  (∀ i : Instr, i.wellFormed = true → ∃ w, encode i = some w ∧ decode w = .instr i) ∧
  (∀ (w : InstrWord) (i : Instr), decode w = .instr i → encode i = some w)

/-- No word matches two rows of the opcode table: the spec's own inference in R79 ("[derived: from rules R68 to R76]"). -/
def Obligations.OpcodeRowsAreDisjoint : Prop :=
  opcodeTable.Pairwise fun a b => ∀ w : InstrWord, ¬ (a.matchesWord w = true ∧ b.matchesWord w = true)

/-- R67 to R76, R78: a word decodes exactly when it matches a row of the opcode table, to that row's instruction, with every
field read from the bits of its format; at the engine a word that matches no row is the fatal `DecodeFault`. -/
def Obligations.DecodeFollowsTheOpcodeTable : Prop :=
  (∀ (w : InstrWord) (i : Instr), decode w = .instr i →
    (∃ row ∈ opcodeTable, row.matchesWord w = true ∧ row.mnemonic = i.mnemonic) ∧ FieldsFrom w i) ∧
  (∀ (w : InstrWord), ∀ row ∈ opcodeTable, row.matchesWord w = true →
    ∃ i : Instr, decode w = .instr i ∧ i.mnemonic = row.mnemonic) ∧
  (∀ w : InstrWord, (∀ row ∈ opcodeTable, row.matchesWord w = false) ↔ ∃ r, decode w = .reject r) ∧
  (∀ s : State, s.fault = none → s.pcX.toNat + 4 ≤ s.code.len →
    (∀ row ∈ opcodeTable, row.matchesWord (le32 s.code s.pcX.toNat) = false) →
    step s = .next { s with fault := some (.decode s.pcX (le32 s.code s.pcX.toNat)) })

/-- R61 to R63: every field of a decoded instruction is read from the bits of its format, and the implicit bits are zero. -/
def Obligations.DecodedFieldsComeFromTheirBits : Prop :=
  ∀ (w : InstrWord) (i : Instr), decode w = .instr i → FieldsFrom w i ∧ i.wellFormed = true

/-- R64: every one of the twenty bits of the jump immediate is decoded and re-encoded at its place. -/
def Obligations.JumpImmediateKeepsAllTwentyBits : Prop :=
  (∀ (w : InstrWord) (rd : RegIdx) (m : BitVec 21), decode w = .instr (.jal rd m) → ImmJAt w m) ∧
  (∀ (rd : RegIdx) (m : BitVec 21), m.getLsbD 0 = false → ImmJAt (encodeWord (.jal rd m)) m)

/-- R183, and R78 for the compressed words: a word with the SYSTEM opcode, or whose low two bits are not 11, does not decode, and
at the engine it is the fatal `DecodeFault`. -/
def Obligations.SystemAndCompressedWordsDoNotDecode : Prop :=
  (∀ w : InstrWord, (w.extractLsb' 0 7 = 0x73#7 ∨ w.extractLsb' 0 2 ≠ 0b11#2) → ∃ r, decode w = .reject r) ∧
  (∀ s : State, s.fault = none → s.pcX.toNat + 4 ≤ s.code.len →
    ((le32 s.code s.pcX.toNat).extractLsb' 0 7 = 0x73#7 ∨ (le32 s.code s.pcX.toNat).extractLsb' 0 2 ≠ 0b11#2) →
    step s = .next { s with fault := some (.decode s.pcX (le32 s.code s.pcX.toNat)) })

/-- Words of the spec's table V-ENC, one of each layout, decode to the instructions they stand for. -/
def Obligations.SampleWordsDecode : Prop :=
  decode 0x123450B7 = .instr (.lui 1 0x12345000) ∧ decode 0x010000EF = .instr (.jal 1 16) ∧
  decode 0xFE209CE3 = .instr (.bne 1 2 0x1FF8) ∧ decode 0xFFC42283 = .instr (.lw 5 8 0xFFC) ∧
  decode 0xFE208FA3 = .instr (.sb 1 2 0xFFF) ∧ decode 0x43F15093 = .instr (.srai 1 2 63) ∧
  decode 0x402081B3 = .instr (.sub 3 1 2) ∧ decode 0x0FF0000F = .instr (.fence 0 0 0x0FF)

/-! ### Bits, registers, pc, width -/

/-- R7: `sign_extend` leaves bits `k..0` and copies bit `k` above; `sext_N` is the two's-complement extension. -/
def Obligations.SignExtensionCopiesTheSignBit : Prop :=
  (∀ (v : Word) (k : Nat), k < 64 → ∀ j, j < 64 →
    (signExtendAt v k).getLsbD j = if j ≤ k then v.getLsbD j else v.getLsbD k) ∧
  (∀ (n : Nat) (v : BitVec n), 0 < n → n ≤ 64 → sext v = v.signExtend 64)

/-- R11: register 0 reads zero, and a write to it, by the write primitive or by the host, changes nothing. -/
def Obligations.RegisterZeroIsHardWired : Prop :=
  ∀ (s : State) (v : Word), s.readCell 0 = 0 ∧ s.readSignExtended 0 = 0 ∧ s.writeReg 0 v = s ∧
    perform (.writeReg 0 v) s = .next s

/-- R19: a register write masks to the width mode, replaces the whole cell, touches nothing else, and ignores index 0. -/
def Obligations.RegisterWriteMasksToTheWidth : Prop :=
  ∀ (s : State) (i : RegIdx) (v : Word),
    (s.writeReg i v).readCell i = (if i = 0 then 0 else byWidth s (v.setWidth 32) v) ∧ s.writeReg 0 v = s ∧
    RegsSameBut i s (s.writeReg i v) ∧ (s.writeReg i v).pc = s.pc ∧ RestSame s (s.writeReg i v) ∧ MemSame s (s.writeReg i v)

/-- R18: the sign-extending read is the signed reading of the register at the effective width. -/
def Obligations.SignExtendedReadIsTheSignedReading : Prop :=
  ∀ (s : State) (i : RegIdx),
    (s.readSignExtended i).toInt = if s.w32 then (reg32 s i).toInt else (reg64 s i).toInt

/-- R22, R23, R24: the pc primitives mask to the width mode, wrap, and an odd increment latches `PcIncrementFault`. -/
def Obligations.PcPrimitivesMaskAndWrap : Prop :=
  ∀ (s : State) (v : Word),
    s.writePc v = { s with pc := byWidth s (v.setWidth 32) v } ∧
    s.offsetPc v = { s with pc := byWidth s (pc32 s + v.setWidth 32) (pc64 s + v) } ∧
    (v.getLsbD 0 = false → s.incrementPc v = s.offsetPc v) ∧
    (v.getLsbD 0 = true → s.incrementPc v = { s with fault := some (.pcIncrement v) })

/-- R25: narrowing truncates every cell and the pc, widening and a mode already held change no cell. R201: the host's
`set_width_mode` on a running core answers that state, and no instruction changes the mode. -/
def Obligations.WidthSwitchTruncatesOnce : Prop :=
  ∀ s : State,
    (s.w32 = false → (s.setWidthMode true).w32 = true ∧
      (∀ i, (s.setWidthMode true).readCell i = (reg32 s i).setWidth 64) ∧
      (s.setWidthMode true).pc = (pc32 s).setWidth 64 ∧
      (s.setWidthMode true).trace = s.trace ∧ (s.setWidthMode true).fault = s.fault ∧
      (s.setWidthMode true).code = s.code ∧ (s.setWidthMode true).mem = s.mem ∧ (s.setWidthMode true).sink = s.sink) ∧
    s.setWidthMode false = { s with w32 := false } ∧
    (s.w32 = true → s.setWidthMode true = s) ∧
    (∀ b, s.fault = none → perform (.setWidthMode b) s = .next (s.setWidthMode b)) ∧
    (∀ (i : Instr) (t : State), exec i s = .next t → t.w32 = s.w32)

/-- R14: after `set_width_mode(true)` every register read is at most 0xFFFF_FFFF (in states the core can hold, `Inv`). -/
def Obligations.NarrowModeReadsAreNarrow : Prop :=
  ∀ (s : State) (i : RegIdx), Inv s → ((s.setWidthMode true).readCell i).toNat ≤ 0xFFFFFFFF

/-- R101, R121: the shift amount is the value modulo `XLEN`, so a shift by the width cannot occur. -/
def Obligations.ShiftAmountIsBelowTheWidth : Prop :=
  ∀ (s : State) (shamt : BitVec 6) (rs2 : RegIdx),
    s.shamtImm shamt = (if s.w32 then shamt.toNat % 32 else shamt.toNat) ∧
    s.shamtReg rs2 = (if s.w32 then (reg32 s rs2).toNat % 32 else (reg64 s rs2).toNat % 64) ∧
    s.shamtImm shamt < s.xlen ∧ s.shamtReg rs2 < s.xlen

/-! ### Buffers -/

/-- R43: data reads and the instruction fetch are little-endian, and a narrower access sees the bytes of the little-endian image
that a wider store left. -/
def Obligations.NarrowReadsSeeTheLittleEndianImage : Prop :=
  (∀ (m : Memory) (a : Nat), m.readLE a 1 = (m.byteAt a).setWidth 64 ∧ m.readLE a 2 = (le16 m a).setWidth 64 ∧
    m.readLE a 4 = (le32 m a).setWidth 64) ∧
  (∀ (s : State) (w : InstrWord), s.codeRead s.pcX = some w → w = le32 s.code s.pcX.toNat) ∧
  (∀ (m : Memory) (a : Nat) (v : Word),
    (∀ k, k < 4 → (m.writeLE a 4 v).readLE (a + k) 1 = (v.extractLsb' (8 * k) 8).setWidth 64) ∧
    (∀ k, k < 2 → (m.writeLE a 4 v).readLE (a + 2 * k) 2 = (v.extractLsb' (16 * k) 16).setWidth 64))

/-- R44: `MemRead` gives the little-endian value of the bytes when all of them exist and faults otherwise, at any alignment. An
access past 2^`XLEN` - 1 is out of bounds where `MEM_LEN` is at most 2^`XLEN`; for a longer `MEM` the model follows the
pseudocode's `addr + n > MEM_LEN` (the model's choice, log 20). -/
def Obligations.MemReadIsBoundedAndLittleEndian : Prop :=
  ∀ (s : State) (addr : Word),
    (∀ size : AccessSize, s.memRead addr size = none ↔ s.mem.len < addr.toNat + size.bytes) ∧
    (∀ size : AccessSize, s.mem.len ≤ 2 ^ s.xlen → 2 ^ s.xlen < addr.toNat + size.bytes → s.memRead addr size = none) ∧
    (addr.toNat + 1 ≤ s.mem.len → s.memRead addr .byte = some ((s.mem.byteAt addr.toNat).setWidth 64)) ∧
    (addr.toNat + 2 ≤ s.mem.len → s.memRead addr .half = some ((le16 s.mem addr.toNat).setWidth 64)) ∧
    (addr.toNat + 4 ≤ s.mem.len → s.memRead addr .word = some ((le32 s.mem addr.toNat).setWidth 64))

/-- R45: `MemWrite` stores the bytes little-endian and no others, and faults before any byte is written. An access past
2^`XLEN` - 1 is out of bounds where `MEM_LEN` is at most 2^`XLEN`; for a longer `MEM` the model follows the pseudocode's
`addr + n > MEM_LEN` (the model's choice, log 20). -/
def Obligations.MemWriteIsBoundedAndLittleEndian : Prop :=
  ∀ (s : State) (addr : Word) (size : AccessSize) (v : Word),
    (s.memWrite addr size v = none ↔ s.mem.len < addr.toNat + size.bytes) ∧
    (s.mem.len ≤ 2 ^ s.xlen → 2 ^ s.xlen < addr.toNat + size.bytes → s.memWrite addr size v = none) ∧
    (∀ t, s.memWrite addr size v = some t →
      (∀ k, k < size.bytes → t.mem.byteAt (addr.toNat + k) = v.extractLsb' (8 * k) 8) ∧
      (∀ x, x < addr.toNat ∨ addr.toNat + size.bytes ≤ x → t.mem.byteAt x = s.mem.byteAt x) ∧
      t.mem.len = s.mem.len ∧ t.pc = s.pc ∧ RegsSame s t ∧ RestSame s t)

/-- R46: `CodeRead` gives the little-endian word of four bytes that exist and faults otherwise. -/
def Obligations.CodeReadIsBoundedAndLittleEndian : Prop :=
  ∀ (s : State) (addr : Word),
    (s.codeRead addr = none ↔ s.code.len < addr.toNat + 4) ∧
    (addr.toNat + 4 ≤ s.code.len → s.codeRead addr = some (le32 s.code addr.toNat))

/-- Buffers in canonical form that hold the same bytes are the same data. -/
def Obligations.CanonicalBuffersAreEqualWhenTheirBytesAre : Prop :=
  ∀ m m' : Memory, m.wf = true → m'.wf = true → m.len = m'.len → (∀ a, m.byteAt a = m'.byteAt a) → m = m'

/-! ### Register-immediate and upper-immediate instructions -/

/-- R102: ADDI. -/
def Obligations.AddiAddsWrapping : Prop :=
  ∀ (rd rs1 : RegIdx) (m : BitVec 12), Encoded (.addi rd rs1 m) 0x13 0b000 ∧
    WritesReg (.addi rd rs1 m) rd (fun s => reg32 s rs1 + m.signExtend 32) (fun s => reg64 s rs1 + m.signExtend 64)

/-- R103, R104: SLTI compares signed, SLTIU unsigned with the sign-extended immediate. -/
def Obligations.SltiAndSltiuCompare : Prop :=
  ∀ (rd rs1 : RegIdx) (m : BitVec 12),
    Encoded (.slti rd rs1 m) 0x13 0b010 ∧ Encoded (.sltiu rd rs1 m) 0x13 0b011 ∧
    WritesReg (.slti rd rs1 m) rd (fun s => bit32 ((reg32 s rs1).slt (m.signExtend 32)))
      (fun s => bit64 ((reg64 s rs1).slt (m.signExtend 64))) ∧
    WritesReg (.sltiu rd rs1 m) rd (fun s => bit32 ((reg32 s rs1).ult (m.signExtend 32)))
      (fun s => bit64 ((reg64 s rs1).ult (m.signExtend 64)))

/-- R105, R106, R107: XORI, ORI, ANDI with the sign-extended immediate. -/
def Obligations.BitwiseImmediatesSignExtend : Prop :=
  ∀ (rd rs1 : RegIdx) (m : BitVec 12),
    Encoded (.xori rd rs1 m) 0x13 0b100 ∧ Encoded (.ori rd rs1 m) 0x13 0b110 ∧ Encoded (.andi rd rs1 m) 0x13 0b111 ∧
    WritesReg (.xori rd rs1 m) rd (fun s => reg32 s rs1 ^^^ m.signExtend 32) (fun s => reg64 s rs1 ^^^ m.signExtend 64) ∧
    WritesReg (.ori rd rs1 m) rd (fun s => reg32 s rs1 ||| m.signExtend 32) (fun s => reg64 s rs1 ||| m.signExtend 64) ∧
    WritesReg (.andi rd rs1 m) rd (fun s => reg32 s rs1 &&& m.signExtend 32) (fun s => reg64 s rs1 &&& m.signExtend 64)

/-- R108, R109, R110: SLLI, SRLI, SRAI, the amount modulo `XLEN`. -/
def Obligations.ShiftImmediatesShiftModuloTheWidth : Prop :=
  ∀ (rd rs1 : RegIdx) (m : BitVec 6),
    EncodedShift (.slli rd rs1 m) 0x13 0b001 0b000000 ∧ EncodedShift (.srli rd rs1 m) 0x13 0b101 0b000000 ∧
    EncodedShift (.srai rd rs1 m) 0x13 0b101 0b010000 ∧
    WritesReg (.slli rd rs1 m) rd (fun s => reg32 s rs1 <<< (m.toNat % 32)) (fun s => reg64 s rs1 <<< m.toNat) ∧
    WritesReg (.srli rd rs1 m) rd (fun s => reg32 s rs1 >>> (m.toNat % 32)) (fun s => reg64 s rs1 >>> m.toNat) ∧
    WritesReg (.srai rd rs1 m) rd (fun s => (reg32 s rs1).sshiftRight (m.toNat % 32))
      (fun s => (reg64 s rs1).sshiftRight m.toNat)

/-- R111, R112: LUI writes the sign-extended upper immediate, AUIPC adds it to the address of the AUIPC itself. -/
def Obligations.UpperImmediatesExtendFromBit31 : Prop :=
  ∀ (rd : RegIdx) (m : BitVec 32),
    (encodeWord (.lui rd m)).extractLsb' 0 7 = 0x37#7 ∧ (encodeWord (.auipc rd m)).extractLsb' 0 7 = 0x17#7 ∧
    WritesReg (.lui rd m) rd (fun _ => m) (fun _ => m.signExtend 64) ∧
    WritesReg (.auipc rd m) rd (fun s => pc32 s + m) (fun s => pc64 s + m.signExtend 64)

/-! ### Register-register instructions -/

/-- R122, R123: ADD and SUB wrap modulo 2^`XLEN`. -/
def Obligations.AddAndSubWrap : Prop :=
  ∀ rd rs1 rs2 : RegIdx,
    EncodedR (.add rd rs1 rs2) 0x33 0b000 0b0000000 ∧ EncodedR (.sub rd rs1 rs2) 0x33 0b000 0b0100000 ∧
    WritesReg (.add rd rs1 rs2) rd (fun s => reg32 s rs1 + reg32 s rs2) (fun s => reg64 s rs1 + reg64 s rs2) ∧
    WritesReg (.sub rd rs1 rs2) rd (fun s => reg32 s rs1 - reg32 s rs2) (fun s => reg64 s rs1 - reg64 s rs2)

/-- R124, R128, R129: SLL, SRL, SRA, the amount `x[rs2]` modulo `XLEN`. -/
def Obligations.RegisterShiftsShiftModuloTheWidth : Prop :=
  ∀ rd rs1 rs2 : RegIdx,
    EncodedR (.sll rd rs1 rs2) 0x33 0b001 0b0000000 ∧ EncodedR (.srl rd rs1 rs2) 0x33 0b101 0b0000000 ∧
    EncodedR (.sra rd rs1 rs2) 0x33 0b101 0b0100000 ∧
    WritesReg (.sll rd rs1 rs2) rd (fun s => reg32 s rs1 <<< ((reg32 s rs2).toNat % 32))
      (fun s => reg64 s rs1 <<< ((reg64 s rs2).toNat % 64)) ∧
    WritesReg (.srl rd rs1 rs2) rd (fun s => reg32 s rs1 >>> ((reg32 s rs2).toNat % 32))
      (fun s => reg64 s rs1 >>> ((reg64 s rs2).toNat % 64)) ∧
    WritesReg (.sra rd rs1 rs2) rd (fun s => (reg32 s rs1).sshiftRight ((reg32 s rs2).toNat % 32))
      (fun s => (reg64 s rs1).sshiftRight ((reg64 s rs2).toNat % 64))

/-- R125, R126: SLT compares signed, SLTU unsigned, at the effective width. -/
def Obligations.SltAndSltuCompare : Prop :=
  ∀ rd rs1 rs2 : RegIdx,
    EncodedR (.slt rd rs1 rs2) 0x33 0b010 0b0000000 ∧ EncodedR (.sltu rd rs1 rs2) 0x33 0b011 0b0000000 ∧
    WritesReg (.slt rd rs1 rs2) rd (fun s => bit32 ((reg32 s rs1).slt (reg32 s rs2)))
      (fun s => bit64 ((reg64 s rs1).slt (reg64 s rs2))) ∧
    WritesReg (.sltu rd rs1 rs2) rd (fun s => bit32 ((reg32 s rs1).ult (reg32 s rs2)))
      (fun s => bit64 ((reg64 s rs1).ult (reg64 s rs2)))

/-- R127, R130, R131: XOR, OR, AND. -/
def Obligations.BitwiseRegisterOperations : Prop :=
  ∀ rd rs1 rs2 : RegIdx,
    EncodedR (.xor rd rs1 rs2) 0x33 0b100 0b0000000 ∧ EncodedR (.or rd rs1 rs2) 0x33 0b110 0b0000000 ∧
    EncodedR (.and rd rs1 rs2) 0x33 0b111 0b0000000 ∧
    WritesReg (.xor rd rs1 rs2) rd (fun s => reg32 s rs1 ^^^ reg32 s rs2) (fun s => reg64 s rs1 ^^^ reg64 s rs2) ∧
    WritesReg (.or rd rs1 rs2) rd (fun s => reg32 s rs1 ||| reg32 s rs2) (fun s => reg64 s rs1 ||| reg64 s rs2) ∧
    WritesReg (.and rd rs1 rs2) rd (fun s => reg32 s rs1 &&& reg32 s rs2) (fun s => reg64 s rs1 &&& reg64 s rs2)

/-- R80: a hint form changes the pc and nothing else. -/
def Obligations.HintFormsOnlyAdvanceThePc : Prop :=
  ∀ (i : Instr) (s : State), hasHintForm i = true → destOf i = some 0 → exec i s = .next { s with pc := nextPc s }

/-! ### Control transfer -/

/-- R141: JAL links `pc + 4` and adds the offset to the address of the JAL itself. -/
def Obligations.JalLinksAndJumpsRelative : Prop :=
  ∀ (rd : RegIdx) (m : BitVec 21), (encodeWord (.jal rd m)).extractLsb' 0 7 = 0x6F#7 ∧
    ∀ s : State, ∃ t : State, exec (.jal rd m) s = .next t ∧
      t.readCell rd = (if rd = 0 then 0 else nextPc s) ∧
      t.pc = byWidth s (pc32 s + m.signExtend 32) (pc64 s + m.signExtend 64) ∧
      RegsSameBut rd s t ∧ RestSame s t ∧ MemSame s t

/-- R142: JALR jumps to the sum of the old `x[rs1]` and the offset, bit 0 cleared, and links `pc + 4`. -/
def Obligations.JalrLinksAndJumpsAbsolute : Prop :=
  ∀ (rd rs1 : RegIdx) (m : BitVec 12), Encoded (.jalr rd rs1 m) 0x67 0b000 ∧
    ∀ s : State, ∃ t : State, exec (.jalr rd rs1 m) s = .next t ∧
      t.readCell rd = (if rd = 0 then 0 else nextPc s) ∧
      t.pc = byWidth s ((reg32 s rs1 + m.signExtend 32) &&& ~~~1#32) ((reg64 s rs1 + m.signExtend 64) &&& ~~~1#64) ∧
      RegsSameBut rd s t ∧ RestSame s t ∧ MemSame s t

/-- R143, R144, R145: BEQ and BNE. -/
def Obligations.EqualityBranches : Prop :=
  ∀ (rs1 rs2 : RegIdx) (m : BitVec 13),
    Encoded (.beq rs1 rs2 m) 0x63 0b000 ∧ Encoded (.bne rs1 rs2 m) 0x63 0b001 ∧
    BranchRule (.beq rs1 rs2 m) m (fun s => reg32 s rs1 == reg32 s rs2) (fun s => reg64 s rs1 == reg64 s rs2) ∧
    BranchRule (.bne rs1 rs2 m) m (fun s => reg32 s rs1 != reg32 s rs2) (fun s => reg64 s rs1 != reg64 s rs2)

/-- R143, R146 to R149: BLT and BGE compare signed, BLTU and BGEU unsigned. -/
def Obligations.OrderingBranches : Prop :=
  ∀ (rs1 rs2 : RegIdx) (m : BitVec 13),
    Encoded (.blt rs1 rs2 m) 0x63 0b100 ∧ Encoded (.bge rs1 rs2 m) 0x63 0b101 ∧
    Encoded (.bltu rs1 rs2 m) 0x63 0b110 ∧ Encoded (.bgeu rs1 rs2 m) 0x63 0b111 ∧
    BranchRule (.blt rs1 rs2 m) m (fun s => (reg32 s rs1).slt (reg32 s rs2)) (fun s => (reg64 s rs1).slt (reg64 s rs2)) ∧
    BranchRule (.bge rs1 rs2 m) m (fun s => (reg32 s rs2).sle (reg32 s rs1)) (fun s => (reg64 s rs2).sle (reg64 s rs1)) ∧
    BranchRule (.bltu rs1 rs2 m) m (fun s => (reg32 s rs1).ult (reg32 s rs2)) (fun s => (reg64 s rs1).ult (reg64 s rs2)) ∧
    BranchRule (.bgeu rs1 rs2 m) m (fun s => (reg32 s rs2).ule (reg32 s rs1)) (fun s => (reg64 s rs2).ule (reg64 s rs1))

/-! ### Loads and stores -/

/-- R160: the address is the wrapping sum at the effective width, for loads and stores. -/
def Obligations.EffectiveAddressWrapsAtTheWidth : Prop :=
  ∀ (s : State) (rs1 : RegIdx) (m : BitVec 12),
    (s.loadAddr rs1 m).toNat = ea s rs1 m ∧ (s.storeAddr rs1 m).toNat = ea s rs1 m

/-- R44, R162 to R167: LB, LH, LW sign-extend and LBU, LHU zero-extend what they load, at any alignment, or latch
`MemBoundsFault`. The bounds condition is `addr + n > MEM_LEN` of R44's pseudocode and of C5 for every `MEM_LEN`: that it is
the whole condition where `MEM_LEN` exceeds 2^`XLEN` is the model's choice (log 20). -/
def Obligations.LoadsExtendOrFault : Prop :=
  ∀ (rd rs1 : RegIdx) (m : BitVec 12),
    Encoded (.lb rd rs1 m) 0x03 0b000 ∧ Encoded (.lh rd rs1 m) 0x03 0b001 ∧ Encoded (.lw rd rs1 m) 0x03 0b010 ∧
    Encoded (.lbu rd rs1 m) 0x03 0b100 ∧ Encoded (.lhu rd rs1 m) 0x03 0b101 ∧
    LoadRule (.lb rd rs1 m) .byte rd rs1 m (fun s a => (s.mem.byteAt a).signExtend 32) (fun s a => (s.mem.byteAt a).signExtend 64) ∧
    LoadRule (.lh rd rs1 m) .half rd rs1 m (fun s a => (le16 s.mem a).signExtend 32) (fun s a => (le16 s.mem a).signExtend 64) ∧
    LoadRule (.lw rd rs1 m) .word rd rs1 m (fun s a => le32 s.mem a) (fun s a => (le32 s.mem a).signExtend 64) ∧
    LoadRule (.lbu rd rs1 m) .byte rd rs1 m (fun s a => (s.mem.byteAt a).setWidth 32) (fun s a => (s.mem.byteAt a).setWidth 64) ∧
    LoadRule (.lhu rd rs1 m) .half rd rs1 m (fun s a => (le16 s.mem a).setWidth 32) (fun s a => (le16 s.mem a).setWidth 64)

/-- R45, R168 to R171: SB, SH, SW store the low bytes, little-endian, and nothing else, or latch `MemBoundsFault`. The bounds
condition is `addr + n > MEM_LEN` of R45's pseudocode and of C5 for every `MEM_LEN`: that it is the whole condition where
`MEM_LEN` exceeds 2^`XLEN` is the model's choice (log 20). -/
def Obligations.StoresWriteTheLowBytes : Prop :=
  ∀ (rs1 rs2 : RegIdx) (m : BitVec 12),
    Encoded (.sb rs1 rs2 m) 0x23 0b000 ∧ Encoded (.sh rs1 rs2 m) 0x23 0b001 ∧ Encoded (.sw rs1 rs2 m) 0x23 0b010 ∧
    StoreRule (.sb rs1 rs2 m) .byte rs1 rs2 m ∧ StoreRule (.sh rs1 rs2 m) .half rs1 rs2 m ∧
    StoreRule (.sw rs1 rs2 m) .word rs1 rs2 m

/-- The property R168 calls testable: a word stored and loaded back with the same effective address is `sext_32` of the stored
low 32 bits (with `rd` = 0 the load writes nothing). That both complete also where `MEM_LEN` exceeds 2^`XLEN` and the word
ends past 2^`XLEN` - 1 is the model's choice (log 20). -/
def Obligations.StoreThenLoadReturnsTheWord : Prop :=
  ∀ (s : State) (rd rs1 rs2 : RegIdx) (m : BitVec 12), ea s rs1 m + 4 ≤ s.mem.len →
    ∃ t u, exec (.sw rs1 rs2 m) s = .next t ∧ exec (.lw rd rs1 m) t = .next u ∧
      u.readCell rd = (if rd = 0 then 0 else byWidth s (reg32 s rs2) ((reg32 s rs2).signExtend 64))

/-! ### Fences -/

/-- R180 to R182: FENCE and FENCE.I change the pc and nothing else, for every value of their fields. -/
def Obligations.FencesOnlyAdvanceThePc : Prop :=
  ∀ (rd rs1 : RegIdx) (m : BitVec 12),
    Encoded (.fence rd rs1 m) 0x0F 0b000 ∧ Encoded (.fenceI rd rs1 m) 0x0F 0b001 ∧
    ∀ s : State, exec (.fence rd rs1 m) s = .next { s with pc := nextPc s } ∧
      exec (.fenceI rd rs1 m) s = .next { s with pc := nextPc s }

/-! ### The whole machine -/

/-- What any instruction leaves unchanged when it answers a next state (R12, R13, R53): every register but its `rd`, every
byte but the ones a store names, the buffers' lengths, CODE, W32, TRACE, the trace output, and the fault latch but for
the `MemBoundsFault` of its own access. That this fault means `MEM_LEN < addr + n` also where `MEM_LEN` exceeds 2^`XLEN` is the
model's choice (log 20). -/
def Obligations.InstructionFrame : Prop :=
  ∀ (i : Instr) (s t : State), exec i s = .next t →
    (∀ j, destOf i ≠ some j → t.readCell j = s.readCell j) ∧
    (∀ x, (∀ a n, storedRange i s = some (a, n) → x < a ∨ a + n ≤ x) → t.mem.byteAt x = s.mem.byteAt x) ∧
    t.mem.len = s.mem.len ∧ t.code = s.code ∧ t.w32 = s.w32 ∧ t.trace = s.trace ∧ t.sink = s.sink ∧
    (t.fault = s.fault ∨ ∃ addr size dir, accessOf i s = some (addr, size, dir) ∧ s.mem.len < addr.toNat + size.bytes ∧
      t.fault = some (.memBounds s.pcX addr size dir))

/-- R190 to R192, R194: when the four bytes at the pc decode to a well-formed instruction, a step emits its trace line if
the flag is set and is then `exec` of it. -/
def Obligations.StepRunsTheDecodedInstruction : Prop :=
  ∀ (s : State) (i : Instr), s.fault = none → s.pcX.toNat + 4 ≤ s.code.len →
    decode (le32 s.code s.pcX.toNat) = .instr i → i.wellFormed = true →
    step s = exec i (s.emitTrace i)

/-- R193: the trace output of a step. With the flag set, a step that decodes adds one line, made of the fetched word and the
instruction, whether or not its execution then faults; any other step adds none; emitting changes no state but the output. That
the output is a field of the state is the model's choice (log 7), and its text is a free value (log 8). -/
def Obligations.TraceLinePrecedesExecution : Prop :=
  (∀ (s : State) (i : Instr), { s.emitTrace i with sink := s.sink } = s) ∧
  ∀ (s t : State), step s = .next t →
    (∀ i, s.fault = none → s.pcX.toNat + 4 ≤ s.code.len → decode (le32 s.code s.pcX.toNat) = .instr i → s.trace = true →
      t.sink = s.sink ++ [{ word := le32 s.code s.pcX.toNat, instr := i }]) ∧
    (s.trace = false ∨ s.fault ≠ none ∨ s.code.len < s.pcX.toNat + 4 ∨
      (∃ r, decode (le32 s.code s.pcX.toNat) = .reject r) → t.sink = s.sink)

/-- R46, R191, R192, R224: one step raises at most one fault, the first of fetch, decode, execute; and only a load or store faults in execute. -/
def Obligations.FaultPriorityFollowsTheStages : Prop :=
  ∀ s : State, s.fault = none →
    (s.code.len < s.pcX.toNat + 4 → step s = .next { s with fault := some (.fetchBounds s.pcX) }) ∧
    (∀ r, s.pcX.toNat + 4 ≤ s.code.len → decode (le32 s.code s.pcX.toNat) = .reject r →
      step s = .next { s with fault := some (.decode s.pcX (le32 s.code s.pcX.toNat)) }) ∧
    (∀ i, s.pcX.toNat + 4 ≤ s.code.len → decode (le32 s.code s.pcX.toNat) = .instr i →
      ∃ t, step s = .next t ∧ (t.fault = none ∨ ∃ addr size dir, accessOf i s = some (addr, size, dir) ∧
        t.fault = some (.memBounds s.pcX addr size dir)))

/-- R226: faults are precise. A step of a running core that latches a fault has changed nothing but the latch and the trace
output, and the record is one of the three a step can raise; a host operation that latches a fault has changed nothing but the
latch; while a fault is latched a step does nothing. -/
def Obligations.FaultsArePrecise : Prop :=
  (∀ (s t : State) (f : Fault), s.fault = none → step s = .next t → t.fault = some f →
    { t with fault := none, sink := s.sink } = s ∧
    (f = .fetchBounds s.pcX ∨ (∃ w, f = .decode s.pcX w) ∨ ∃ addr size dir, f = .memBounds s.pcX addr size dir)) ∧
  (∀ (op : HostOp) (s t : State) (f : Fault), s.fault = none → perform op s = .next t → t.fault = some f →
    { t with fault := none } = s ∧ ((∃ a, f = .pcAlign a) ∨ ∃ n, f = .pcIncrement n)) ∧
  (∀ (s : State) (f : Fault), s.fault = some f → step s = .next s)

/-- R227: while a fault is latched a step, a run and every host operation but reset change nothing, and reset clears it. -/
def Obligations.LatchedCoreDoesNothing : Prop :=
  ∀ (s : State) (f : Fault), s.fault = some f →
    step s = .next s ∧ (∀ n, runCount n s = .next s) ∧
    (∀ op : HostOp, (∀ w m, op ≠ .reset w m) → perform op s = .next s) ∧
    (∀ w m, perform (.reset w m) s = .next (State.launch w m) ∧ (State.launch w m).fault = none)

/-- Every step answers a next state (R194): no decoded instruction is without an execution rule. That a step with a fault is a
next state with the latch set, and not a stop of the host's interface, is the model's choice (log 5). -/
def Obligations.EveryStepAnswersANextState : Prop := ∀ s : State, ∃ t : State, step s = .next t

/-- R11, R14: the invariant is kept by every step. -/
def Obligations.StepKeepsTheInvariant : Prop := ∀ s t : State, Inv s → step s = .next t → Inv t

/-- R11, R14, R25: the invariant is kept by every host operation, a reset being given a memory in canonical form. -/
def Obligations.HostOperationsKeepTheInvariant : Prop :=
  ∀ (op : HostOp) (s t : State), Inv s → (∀ w m, op = .reset w m → m.wf = true) → perform op s = .next t → Inv t

/-- R26: from an even pc every step leaves the pc even. -/
def Obligations.StepKeepsThePcEven : Prop := ∀ s t : State, PcEven s → step s = .next t → PcEven t

/-- R206: a counted run ends after its steps with no fault latched, or at its first faulting step, in the state the
completed steps produced with the fault latched. -/
def Obligations.CountedRunEndsOrStopsAtTheFirstFault : Prop :=
  ∀ (n : Nat) (s : State), s.fault = none → ∃ t, runCount n s = .next t ∧
    ((t.fault = none ∧ Host.Core.run Sys2Proof.core n s = .next t) ∨
      ∃ k u, k < n ∧ Host.Core.run Sys2Proof.core k s = .next u ∧ u.fault = none ∧ step u = .next t ∧ t.fault ≠ none)

/-- Drawn together from R53 (the code buffer), R13 (the width mode), R28 and R202 (the trace flag) and R200 (the length of
memory): no step changes one of them, and only the host operations named for them, or reset, do. -/
def Obligations.StepNeverTouchesCodeOrModes : Prop :=
  (∀ s t : State, step s = .next t → t.code = s.code ∧ t.w32 = s.w32 ∧ t.trace = s.trace ∧ t.mem.len = s.mem.len) ∧
  (∀ (op : HostOp) (s t : State), perform op s = .next t → (∃ w m, op = .reset w m) ∨
    ((t.code = s.code ∨ ∃ b, op = .loadCode b) ∧
      (t.w32 = s.w32 ∨ (∃ b, op = .setWidthMode b) ∨ ∃ n, op = .activateIsa n) ∧
      (t.trace = s.trace ∨ ∃ b, op = .setTrace b) ∧ t.mem.len = s.mem.len))

/-! ### Reset and the host -/

/-- R33: from every state reset answers the launched state, in which every register and the pc are zero, no fault is latched,
the trace is off, the code buffer is empty, and the width and memory are the launch's; and `State.reset` is a launched state
(which one, its width, length and contents, is the model's choice: logs 1, 2 and 3). -/
def Obligations.ResetStateIsAsDecided : Prop :=
  (∀ (w32 : Bool) (mem : Memory) (s : State), perform (.reset w32 mem) s = .next (State.launch w32 mem)) ∧
  (∀ (w32 : Bool) (mem : Memory), (∀ i, (State.launch w32 mem).readCell i = 0) ∧ (State.launch w32 mem).pc = 0 ∧
    (State.launch w32 mem).w32 = w32 ∧ (State.launch w32 mem).trace = false ∧ (State.launch w32 mem).fault = none ∧
    (State.launch w32 mem).code.len = 0 ∧ (State.launch w32 mem).mem = mem) ∧
  ∃ (w32 : Bool) (mem : Memory), State.reset = State.launch w32 mem

/-- The invariant holds after reset, for every launch whose memory is in canonical form, and at `State.reset`. -/
def Obligations.ResetMeetsTheInvariant : Prop :=
  (∀ (w32 : Bool) (mem : Memory), mem.wf = true → Inv (State.launch w32 mem) ∧ PcEven (State.launch w32 mem)) ∧
  Inv State.reset ∧ PcEven State.reset

/-- R197: `load_code` replaces the code buffer and changes nothing else. -/
def Obligations.LoadCodeReplacesTheCodeBuffer : Prop :=
  ∀ (s : State) (bytes : List Byte), s.fault = none → ∃ t, perform (.loadCode bytes) s = .next t ∧
    t.code.len = bytes.length ∧ (∀ (k : Nat) (h : k < bytes.length), t.code.byteAt k = bytes[k]) ∧
    { t with code := s.code } = s

/-- R198: `set_pc` takes an even address, masked to the width mode, and latches `PcAlignFault` for an odd one. -/
def Obligations.SetPcRequiresAnEvenAddress : Prop :=
  ∀ (s : State) (a : Word), s.fault = none →
    (a.getLsbD 0 = false → perform (.setPc a) s = .next { s with pc := byWidth s (a.setWidth 32) a }) ∧
    (a.getLsbD 0 = true → perform (.setPc a) s = .next { s with fault := some (.pcAlign a) })

/-- R199: register and pc access by the host. In every state `read` gives the cell, 0 for index 0, and `read_sign_extended` its
extension at the effective width (`read_pc` is the field `pc`, log 15); on a running core `write` masks to the width mode and
ignores index 0, `write_pc` and `offset_pc` take any value, odd ones too, and `increment_pc` with an odd size latches
`PcIncrementFault`. -/
def Obligations.HostRegisterAndPcAccess : Prop :=
  ∀ (s : State) (i : RegIdx) (v : Word),
    s.readCell i = (if i = 0 then 0 else s.regs[i.toNat]) ∧
    s.readSignExtended i = (if s.w32 then (reg32 s i).signExtend 64 else reg64 s i) ∧
    (s.fault = none →
      (∃ t, perform (.writeReg i v) s = .next t ∧ t.readCell i = (if i = 0 then 0 else byWidth s (v.setWidth 32) v) ∧
        RegsSameBut i s t ∧ t.pc = s.pc ∧ RestSame s t ∧ MemSame s t) ∧
      perform (.writeReg 0 v) s = .next s ∧
      perform (.writePc v) s = .next { s with pc := byWidth s (v.setWidth 32) v } ∧
      perform (.offsetPc v) s = .next { s with pc := byWidth s (pc32 s + v.setWidth 32) (pc64 s + v) } ∧
      (v.getLsbD 0 = false →
        perform (.incrementPc v) s = .next { s with pc := byWidth s (pc32 s + v.setWidth 32) (pc64 s + v) }) ∧
      (v.getLsbD 0 = true → perform (.incrementPc v) s = .next { s with fault := some (.pcIncrement v) }))

/-- R202: the host sets and clears the trace flag of a running core, which changes nothing else; and a step with the flag at
either value gives the same state but for the flag itself and the trace output. Which lines come out is the statement
TraceLinePrecedesExecution. -/
def Obligations.TraceFlagChangesOnlyTheLines : Prop :=
  (∀ (s : State) (b : Bool), s.fault = none → perform (.setTrace b) s = .next { s with trace := b }) ∧
  (∀ (s t : State) (b : Bool), step s = .next t → ∃ u, step { s with trace := b } = .next u ∧ u.trace = b ∧
    { u with trace := t.trace, sink := t.sink } = t)

/-- R200: the host writes and reads bytes of MEM inside its bounds, with no other effect; outside them the write is refused
and the read gives nothing (the model's choice, log 11). -/
def Obligations.HostMemoryAccessStaysInBounds : Prop :=
  ∀ (s : State) (a : Nat) (bytes : List Byte), s.fault = none →
    (a + bytes.length ≤ s.mem.len → ∃ t, perform (.writeMem a bytes) s = .next t ∧
      t.hostReadMem a bytes.length = some bytes ∧
      (∀ x, x < a ∨ a + bytes.length ≤ x → t.mem.byteAt x = s.mem.byteAt x) ∧
      t.mem.len = s.mem.len ∧ { t with mem := s.mem } = s) ∧
    (s.mem.len < a + bytes.length → perform (.writeMem a bytes) s = .refused .hostMemOutOfBounds ∧
      s.hostReadMem a bytes.length = none)

/-- R205: a recognised ISA name sets its width and answers true; an unrecognised one changes nothing and answers
false. It holds for every value of the free table of names (log 9). -/
def Obligations.IsaActivationSetsTheWidthOnly : Prop :=
  ∀ (s : State) (name : String), s.fault = none →
    (isaRecognised name = true ∧ ∃ b, Config.isaNameWidth name = some b ∧
      perform (.activateIsa name) s = .next (s.setWidthMode b)) ∨
    (isaRecognised name = false ∧ Config.isaNameWidth name = none ∧ perform (.activateIsa name) s = .next s)

/-- A word placed by `withFetchWord` is the one the next step runs, from every state (log 14): the placing stands for
`load_code`. -/
def Obligations.PlacedWordIsRunNext : Prop :=
  ∀ (s : State) (w : InstrWord) (i : Instr), decode w = .instr i →
    step (s.withFetchWord 32 w.toNat) = exec i ((s.withFetchWord 32 w.toNat).emitTrace i) ∧
    (s.withFetchWord 32 w.toNat).regs = s.regs ∧ (s.withFetchWord 32 w.toNat).pc = s.pc ∧
    (s.withFetchWord 32 w.toNat).mem = s.mem ∧ (s.withFetchWord 32 w.toNat).w32 = s.w32
end

