-- ==== Sys2Proof/Laws/State.lean ====
section
/-! SUPPORT. One lemma per field and update of State, true by unfolding, so that no later proof unfolds an update. -/

namespace Sys2Proof.Machine

/-! ### raise -/

@[simp] theorem raise_regs (s : State) (f : Fault) : (s.raise f).regs = s.regs := rfl
@[simp] theorem raise_pc (s : State) (f : Fault) : (s.raise f).pc = s.pc := rfl
@[simp] theorem raise_w32 (s : State) (f : Fault) : (s.raise f).w32 = s.w32 := rfl
@[simp] theorem raise_trace (s : State) (f : Fault) : (s.raise f).trace = s.trace := rfl
@[simp] theorem raise_fault (s : State) (f : Fault) : (s.raise f).fault = some f := rfl
@[simp] theorem raise_code (s : State) (f : Fault) : (s.raise f).code = s.code := rfl
@[simp] theorem raise_mem (s : State) (f : Fault) : (s.raise f).mem = s.mem := rfl
@[simp] theorem raise_sink (s : State) (f : Fault) : (s.raise f).sink = s.sink := rfl

/-! ### writePc, offsetPc, incrementPc, advance -/

@[simp] theorem writePc_regs (s : State) (v : Word) : (s.writePc v).regs = s.regs := rfl
@[simp] theorem writePc_pc (s : State) (v : Word) : (s.writePc v).pc = s.trunc v := rfl
@[simp] theorem writePc_w32 (s : State) (v : Word) : (s.writePc v).w32 = s.w32 := rfl
@[simp] theorem writePc_trace (s : State) (v : Word) : (s.writePc v).trace = s.trace := rfl
@[simp] theorem writePc_fault (s : State) (v : Word) : (s.writePc v).fault = s.fault := rfl
@[simp] theorem writePc_code (s : State) (v : Word) : (s.writePc v).code = s.code := rfl
@[simp] theorem writePc_mem (s : State) (v : Word) : (s.writePc v).mem = s.mem := rfl
@[simp] theorem writePc_sink (s : State) (v : Word) : (s.writePc v).sink = s.sink := rfl

theorem offsetPc_eq (s : State) (d : Word) : s.offsetPc d = s.writePc (s.pc + d) := rfl

theorem incrementPc_even (s : State) (size : Word) (h : size.getLsbD 0 = false) : s.incrementPc size = s.offsetPc size := by
  unfold State.incrementPc; rw [if_neg (by simp only [h, Bool.false_eq_true, not_false_eq_true])]

theorem incrementPc_odd (s : State) (size : Word) (h : size.getLsbD 0 = true) :
    s.incrementPc size = s.raise (.pcIncrement size) := if_pos h

/-- Every instruction advances by an even size, so none raises `PcIncrementFault` (R24). -/
theorem advance_eq (s : State) : s.advance = s.writePc (s.pc + 4) := incrementPc_even s 4 (by decide)

@[simp] theorem offsetPc_regs (s : State) (d : Word) : (s.offsetPc d).regs = s.regs := rfl
@[simp] theorem offsetPc_pc (s : State) (d : Word) : (s.offsetPc d).pc = s.trunc (s.pc + d) := rfl
@[simp] theorem offsetPc_w32 (s : State) (d : Word) : (s.offsetPc d).w32 = s.w32 := rfl
@[simp] theorem offsetPc_trace (s : State) (d : Word) : (s.offsetPc d).trace = s.trace := rfl
@[simp] theorem offsetPc_fault (s : State) (d : Word) : (s.offsetPc d).fault = s.fault := rfl
@[simp] theorem offsetPc_code (s : State) (d : Word) : (s.offsetPc d).code = s.code := rfl
@[simp] theorem offsetPc_mem (s : State) (d : Word) : (s.offsetPc d).mem = s.mem := rfl
@[simp] theorem offsetPc_sink (s : State) (d : Word) : (s.offsetPc d).sink = s.sink := rfl

@[simp] theorem advance_regs (s : State) : s.advance.regs = s.regs := by rw [advance_eq]; rfl
@[simp] theorem advance_pc (s : State) : s.advance.pc = s.trunc (s.pc + 4) := by rw [advance_eq]; rfl
@[simp] theorem advance_w32 (s : State) : s.advance.w32 = s.w32 := by rw [advance_eq]; rfl
@[simp] theorem advance_trace (s : State) : s.advance.trace = s.trace := by rw [advance_eq]; rfl
@[simp] theorem advance_fault (s : State) : s.advance.fault = s.fault := by rw [advance_eq]; rfl
@[simp] theorem advance_code (s : State) : s.advance.code = s.code := by rw [advance_eq]; rfl
@[simp] theorem advance_mem (s : State) : s.advance.mem = s.mem := by rw [advance_eq]; rfl
@[simp] theorem advance_sink (s : State) : s.advance.sink = s.sink := by rw [advance_eq]; rfl

/-! ### writeReg -/

@[simp] theorem writeReg_zero (s : State) (v : Word) : s.writeReg 0 v = s := if_pos rfl

/-- The same in the form `simp` gives the index. -/
@[simp] theorem writeReg_zero_lit (s : State) (v : Word) : s.writeReg 0#5 v = s := if_pos rfl

theorem writeReg_regs (s : State) (i : RegIdx) (v : Word) :
    (s.writeReg i v).regs = if i = 0 then s.regs else s.regs.set i.toNat (s.trunc v) := by
  unfold State.writeReg; split <;> rfl

@[simp] theorem writeReg_pc (s : State) (i : RegIdx) (v : Word) : (s.writeReg i v).pc = s.pc := by
  unfold State.writeReg; split <;> rfl
@[simp] theorem writeReg_w32 (s : State) (i : RegIdx) (v : Word) : (s.writeReg i v).w32 = s.w32 := by
  unfold State.writeReg; split <;> rfl
@[simp] theorem writeReg_trace (s : State) (i : RegIdx) (v : Word) : (s.writeReg i v).trace = s.trace := by
  unfold State.writeReg; split <;> rfl
@[simp] theorem writeReg_fault (s : State) (i : RegIdx) (v : Word) : (s.writeReg i v).fault = s.fault := by
  unfold State.writeReg; split <;> rfl
@[simp] theorem writeReg_code (s : State) (i : RegIdx) (v : Word) : (s.writeReg i v).code = s.code := by
  unfold State.writeReg; split <;> rfl
@[simp] theorem writeReg_mem (s : State) (i : RegIdx) (v : Word) : (s.writeReg i v).mem = s.mem := by
  unfold State.writeReg; split <;> rfl
@[simp] theorem writeReg_sink (s : State) (i : RegIdx) (v : Word) : (s.writeReg i v).sink = s.sink := by
  unfold State.writeReg; split <;> rfl

/-! ### emitTrace -/

@[simp] theorem emitTrace_regs (s : State) (i : Instr) : (s.emitTrace i).regs = s.regs := by
  unfold State.emitTrace; split <;> rfl
@[simp] theorem emitTrace_pc (s : State) (i : Instr) : (s.emitTrace i).pc = s.pc := by
  unfold State.emitTrace; split <;> rfl
@[simp] theorem emitTrace_w32 (s : State) (i : Instr) : (s.emitTrace i).w32 = s.w32 := by
  unfold State.emitTrace; split <;> rfl
@[simp] theorem emitTrace_trace (s : State) (i : Instr) : (s.emitTrace i).trace = s.trace := by
  unfold State.emitTrace; split <;> rfl
@[simp] theorem emitTrace_fault (s : State) (i : Instr) : (s.emitTrace i).fault = s.fault := by
  unfold State.emitTrace; split <;> rfl
@[simp] theorem emitTrace_code (s : State) (i : Instr) : (s.emitTrace i).code = s.code := by
  unfold State.emitTrace; split <;> rfl
@[simp] theorem emitTrace_mem (s : State) (i : Instr) : (s.emitTrace i).mem = s.mem := by
  unfold State.emitTrace; split <;> rfl
theorem emitTrace_sink (s : State) (i : Instr) :
    (s.emitTrace i).sink = if s.trace then s.sink ++ [{ word := encodeWord i, instr := i }] else s.sink := by
  unfold State.emitTrace; split <;> rfl

/-! ### The width operations read `w32` only -/

/-- `trunc`, `readCell` and what is read through them depend on `w32` and `regs` alone. -/
theorem trunc_congr {s t : State} (h : t.w32 = s.w32) (v : Word) : t.trunc v = s.trunc v := by
  unfold State.trunc; rw [h]

@[simp] theorem raise_trunc (s : State) (f : Fault) (v : Word) : (s.raise f).trunc v = s.trunc v := rfl
@[simp] theorem writePc_trunc (s : State) (p v : Word) : (s.writePc p).trunc v = s.trunc v := rfl
@[simp] theorem writeReg_trunc (s : State) (i : RegIdx) (r v : Word) : (s.writeReg i r).trunc v = s.trunc v :=
  trunc_congr (by simp) v
@[simp] theorem emitTrace_trunc (s : State) (i : Instr) (v : Word) : (s.emitTrace i).trunc v = s.trunc v :=
  trunc_congr (by simp) v

theorem readCell_congr {s t : State} (h : t.regs = s.regs) (i : RegIdx) : t.readCell i = s.readCell i := by
  unfold State.readCell; simp only [h]

@[simp] theorem raise_readCell (s : State) (f : Fault) (i : RegIdx) : (s.raise f).readCell i = s.readCell i := rfl
@[simp] theorem writePc_readCell (s : State) (p : Word) (i : RegIdx) : (s.writePc p).readCell i = s.readCell i := rfl
@[simp] theorem offsetPc_readCell (s : State) (d : Word) (i : RegIdx) : (s.offsetPc d).readCell i = s.readCell i := rfl
@[simp] theorem advance_readCell (s : State) (i : RegIdx) : s.advance.readCell i = s.readCell i :=
  readCell_congr (by simp) i
@[simp] theorem emitTrace_readCell (s : State) (j : Instr) (i : RegIdx) : (s.emitTrace j).readCell i = s.readCell i :=
  readCell_congr (by simp) i

/-! ### launch -/

@[simp] theorem launch_regs (b : Bool) (m : Memory) : (State.launch b m).regs = Vector.replicate 32 0 := rfl
@[simp] theorem launch_pc (b : Bool) (m : Memory) : (State.launch b m).pc = 0 := rfl
@[simp] theorem launch_w32 (b : Bool) (m : Memory) : (State.launch b m).w32 = b := rfl
@[simp] theorem launch_trace (b : Bool) (m : Memory) : (State.launch b m).trace = false := rfl
@[simp] theorem launch_fault (b : Bool) (m : Memory) : (State.launch b m).fault = none := rfl
@[simp] theorem launch_code (b : Bool) (m : Memory) : (State.launch b m).code = { len := 0, cells := [] } := rfl
@[simp] theorem launch_mem (b : Bool) (m : Memory) : (State.launch b m).mem = m := rfl
@[simp] theorem launch_sink (b : Bool) (m : Memory) : (State.launch b m).sink = [] := rfl

end Sys2Proof.Machine
end

