-- ==== Sys2Proof/Laws/Bits.lean ====
section
/-! SUPPORT. Truncation, extension and the width mode (spec R7, R16 to R18): a value held zero-extended in a cell is the
`XLEN`-bit vector the spec's pseudocode computes with. -/

namespace Sys2Proof.Machine

theorem getLsbD_low32 (v : Word) (j : Nat) : (low32 v).getLsbD j = (decide (j < 32) && v.getLsbD j) := by
  unfold low32
  rw [BitVec.getLsbD_setWidth, BitVec.getLsbD_setWidth]
  by_cases h : j < 32
  · have : j < 64 := by omega
    simp only [h, this, decide_true, Bool.true_and]
  · simp only [h, decide_false, Bool.false_and, Bool.and_false]

@[simp] theorem low32_low32 (v : Word) : low32 (low32 v) = low32 v := by
  apply BitVec.eq_of_getLsbD_eq; intro j _
  simp only [getLsbD_low32, ← Bool.and_assoc, Bool.and_self]

@[simp] theorem setWidth_low32 (v : Word) : (low32 v).setWidth 32 = v.setWidth 32 := by
  apply BitVec.eq_of_getLsbD_eq; intro j hj
  simp only [getLsbD_low32, BitVec.getLsbD_setWidth, hj, decide_true, Bool.true_and]

theorem low32_toNat (v : Word) : (low32 v).toNat = v.toNat % 2 ^ 32 := by
  unfold low32; simp [BitVec.toNat_setWidth]; omega

theorem low32_toNat_lt (v : Word) : (low32 v).toNat < 2 ^ 32 := by
  rw [low32_toNat]; exact Nat.mod_lt _ (by decide)

theorem setWidth_setWidth32 (v : BitVec 32) : (v.setWidth 64).setWidth 32 = v := by simp

theorem low32_of_setWidth (v : BitVec 32) : low32 (v.setWidth 64) = v.setWidth 64 := by
  unfold low32; rw [setWidth_setWidth32]

/-- Two cells with the same low half. -/
theorem low32_eq_of (v : Word) (w : BitVec 32) (h : v.setWidth 32 = w) : low32 v = w.setWidth 64 := by
  unfold low32; rw [h]

theorem low32_bit0 (v : Word) : (low32 v).getLsbD 0 = v.getLsbD 0 := by
  rw [getLsbD_low32]; exact Bool.true_and _

theorem trunc_bit0 (s : State) (v : Word) : (s.trunc v).getLsbD 0 = v.getLsbD 0 := by
  unfold State.trunc; split
  · exact low32_bit0 v
  · rfl

@[simp] theorem trunc_trunc (s : State) (v : Word) : s.trunc (s.trunc v) = s.trunc v := by
  unfold State.trunc; split <;> simp

/-- In 32-bit mode `trunc` is the low half; in native mode the value. -/
theorem trunc_true {s : State} (h : s.w32 = true) (v : Word) : s.trunc v = low32 v := by simp [State.trunc, h]
theorem trunc_false {s : State} (h : s.w32 = false) (v : Word) : s.trunc v = v := by simp [State.trunc, h]

theorem setWidth32_add (a b : Word) : (a + b).setWidth 32 = a.setWidth 32 + b.setWidth 32 :=
  BitVec.setWidth_add a b (by decide)

/-- `low32` of a sum sees only the low halves of its terms. -/
theorem low32_add (a b : Word) : low32 (low32 a + low32 b) = low32 (a + b) := by
  apply low32_eq_of
  rw [setWidth32_add, setWidth_low32, setWidth_low32, setWidth32_add]

/-! ### Arithmetic commutes with taking the low half (R16) -/

theorem setWidth32_sub (a b : Word) : (a - b).setWidth 32 = a.setWidth 32 - b.setWidth 32 := by
  apply BitVec.eq_of_toNat_eq; simp [BitVec.toNat_sub]; omega

theorem setWidth32_xor (a b : Word) : (a ^^^ b).setWidth 32 = a.setWidth 32 ^^^ b.setWidth 32 := by simp
theorem setWidth32_or (a b : Word) : (a ||| b).setWidth 32 = a.setWidth 32 ||| b.setWidth 32 := by simp
theorem setWidth32_and (a b : Word) : (a &&& b).setWidth 32 = a.setWidth 32 &&& b.setWidth 32 := by simp

theorem setWidth32_shiftLeft (v : Word) (n : Nat) : (low32 v <<< n).setWidth 32 = v.setWidth 32 <<< n := by
  apply BitVec.eq_of_getLsbD_eq; intro j hj
  have h1 : j < 64 := by omega
  have h2 : j - n < 32 := by omega
  simp only [BitVec.getLsbD_setWidth, BitVec.getLsbD_shiftLeft, getLsbD_low32, hj, h1, h2, decide_true, Bool.true_and]

theorem setWidth32_ushiftRight (v : Word) (n : Nat) : (low32 v >>> n).setWidth 32 = v.setWidth 32 >>> n := by
  apply BitVec.eq_of_getLsbD_eq; intro j hj
  simp [BitVec.getLsbD_setWidth, BitVec.getLsbD_ushiftRight, getLsbD_low32, hj]

theorem setWidth32_sshiftRight (v : BitVec 32) (n : Nat) (hn : n < 32) :
    ((v.signExtend 64).sshiftRight n).setWidth 32 = v.sshiftRight n := by
  apply BitVec.eq_of_getLsbD_eq; intro j hj
  have h1 : j < 64 := by omega
  have h2 : n + j < 64 := by omega
  simp only [BitVec.getLsbD_setWidth, BitVec.getLsbD_sshiftRight, BitVec.getLsbD_signExtend, hj, h2]
  by_cases h3 : n + j < 32 <;> simp [h3, Nat.not_le.mpr h1, Nat.not_le.mpr hj]

theorem ult_setWidth64 (a b : BitVec 32) : (a.setWidth 64).ult (b.setWidth 64) = a.ult b := by
  have := a.isLt; have := b.isLt
  simp only [BitVec.ult, BitVec.toNat_setWidth, Nat.mod_eq_of_lt (show a.toNat < 2 ^ 64 by omega),
    Nat.mod_eq_of_lt (show b.toNat < 2 ^ 64 by omega)]

theorem slt_signExtend64 (a b : BitVec 32) : (a.signExtend 64).slt (b.signExtend 64) = a.slt b := by
  rw [BitVec.slt, BitVec.slt, BitVec.toInt_signExtend_of_le (by decide), BitVec.toInt_signExtend_of_le (by decide)]

/-! ### Sign extension (R7) -/

theorem getLsbD_ones_above (k j : Nat) (hj : j < 64) (hk : k < 64) :
    (~~~((1#64 <<< (k + 1)) - 1#64)).getLsbD j = decide (k < j) := by
  have key : ((1#64 <<< (k + 1)) - 1#64) = BitVec.ofNat 64 (2 ^ (k + 1) - 1) := by
    apply BitVec.eq_of_toNat_eq
    rcases Nat.lt_or_ge k 63 with h | h
    · have h1 : 2 ^ (k + 1) < 2 ^ 64 := Nat.pow_lt_pow_right (by decide) (by omega)
      have h2 : 0 < 2 ^ (k + 1) := Nat.two_pow_pos _
      simp only [BitVec.toNat_sub, BitVec.toNat_shiftLeft, BitVec.toNat_ofNat, Nat.shiftLeft_eq]
      omega
    · have : k = 63 := by omega
      subst this; decide
  rw [key, BitVec.getLsbD_not, BitVec.getLsbD_ofNat, Nat.testBit_two_pow_sub_one]
  by_cases h : k < j
  · simp [hj, h]
  · simp [hj, h]; omega

/-- R7, bit by bit: bits up to `k` unchanged, bits above it copies of bit `k`. -/
theorem getLsbD_signExtendAt (v : Word) (k j : Nat) (hk : k < 64) (hj : j < 64) :
    (signExtendAt v k).getLsbD j = if j ≤ k then v.getLsbD j else v.getLsbD k := by
  unfold signExtendAt
  simp only
  have hh := getLsbD_ones_above k j hj hk
  split
  next h =>
    rw [BitVec.getLsbD_or, hh]
    by_cases hjk : j ≤ k
    · simp [hjk, Nat.not_lt.mpr hjk]
    · simp [hjk, h, Nat.lt_of_not_le hjk]
  next h =>
    rw [BitVec.getLsbD_and, BitVec.getLsbD_not, hh]
    by_cases hjk : j ≤ k
    · simp [hjk, hj, Nat.not_lt.mpr hjk]
    · simp [hjk, h, Nat.lt_of_not_le hjk]

/-- `sext_N` is the two's-complement extension to 64 bits. -/
theorem sext_eq_signExtend {n : Nat} (v : BitVec n) (h0 : 0 < n) (h : n ≤ 64) : sext v = v.signExtend 64 := by
  apply BitVec.eq_of_getLsbD_eq
  intro j hj
  unfold sext
  rw [getLsbD_signExtendAt _ _ _ (by omega) hj, BitVec.getLsbD_signExtend, BitVec.msb_eq_getLsbD_last]
  by_cases hjn : j < n
  · rw [if_pos (by omega)]; simp [hj, hjn]
  · rw [if_neg (by omega)]
    have : n - 1 < 64 := by omega
    simp [hj, hjn, this]

theorem setWidth_signExtend {n : Nat} (v : BitVec n) : (v.signExtend 64).setWidth 32 = v.signExtend 32 := by
  apply BitVec.eq_of_getLsbD_eq
  intro j hj
  have : j < 64 := by omega
  simp only [BitVec.getLsbD_setWidth, BitVec.getLsbD_signExtend, hj, this, decide_true, Bool.true_and]

theorem setWidth_sext {n : Nat} (v : BitVec n) (h0 : 0 < n) (h : n ≤ 64) : (sext v).setWidth 32 = v.signExtend 32 := by
  rw [sext_eq_signExtend v h0 h, setWidth_signExtend]

/-- R18 in 32-bit mode: the signed reading of the low half. -/
theorem signExtendAt_31 (v : Word) : signExtendAt v 31 = (v.setWidth 32).signExtend 64 := by
  apply BitVec.eq_of_getLsbD_eq
  intro j hj
  rw [getLsbD_signExtendAt _ _ _ (by decide) hj, BitVec.getLsbD_signExtend, BitVec.msb_eq_getLsbD_last]
  by_cases h : j < 32
  · rw [if_pos (by omega)]; simp [h, hj]
  · rw [if_neg (by omega)]; simp [h, hj]

/-! ### Registers -/

@[simp] theorem readCell_zero (s : State) : s.readCell 0 = 0 := if_pos rfl
/-- The same in the form `simp` gives the index. -/
@[simp] theorem readCell_zero_lit (s : State) : s.readCell 0#5 = 0 := if_pos rfl
@[simp] theorem x_zero (s : State) : s.x 0 = 0 := by
  unfold State.x; rw [readCell_zero]; unfold State.trunc low32; split <;> rfl

/-- R19, R17: what a write leaves in each cell. -/
theorem readCell_writeReg (s : State) (i j : RegIdx) (v : Word) :
    (s.writeReg i v).readCell j = if j = i then (if i = 0 then 0 else s.trunc v) else s.readCell j := by
  by_cases hi : i = 0
  · subst hi
    rw [writeReg_zero, if_pos rfl]
    by_cases hj : j = 0
    · rw [if_pos hj, hj, readCell_zero]
    · rw [if_neg hj]
  · unfold State.readCell
    simp only [writeReg_regs, if_neg hi]
    by_cases hj : j = 0
    · have hji : j ≠ i := fun h => hi (h ▸ hj)
      rw [if_pos hj, if_neg hji, if_pos hj]
    · rw [if_neg hj, if_neg hj]
      by_cases hji : j = i
      · subst hji; rw [if_pos rfl]; exact Vector.getElem_set_self _
      · have : i.toNat ≠ j.toNat := fun h => hji (BitVec.eq_of_toNat_eq h.symm)
        rw [if_neg hji]; exact Vector.getElem_set_ne _ _ this

end Sys2Proof.Machine
end

