-- ==== Sys2Proof/Laws/Codec.lean ====
section
/-! SUPPORT. The layouts of R62, field by field: what each field of a packed word is, and that a word is the packing of
its own fields. -/

namespace Sys2Proof

theorem getLsbD_placeAt (n : Nat) {k : Nat} (v : BitVec k) (lo j : Nat) :
    (placeAt n v lo).getLsbD j = (decide (j < n) && (decide (lo ≤ j) && v.getLsbD (j - lo))) := by
  unfold placeAt
  rw [BitVec.getLsbD_shiftLeft, BitVec.getLsbD_setWidth]
  by_cases h1 : j < n
  · by_cases h2 : lo ≤ j
    · have h3 : ¬ j < lo := by omega
      have h4 : j - lo < n := by omega
      simp only [h1, h2, h3, h4, decide_true, decide_false, Bool.true_and, Bool.not_false]
    · have h3 : j < lo := by omega
      simp only [h1, h2, h3, decide_true, decide_false, Bool.true_and, Bool.false_and, Bool.not_true]
  · simp only [h1, decide_false, Bool.false_and]

/-! ### Layout R -/
section
variable (f7 : BitVec 7) (rs2 rs1 : RegIdx) (f3 : BitVec 3) (rd : RegIdx) (op : BitVec 7)

@[simp] theorem opcodeOf_packR : opcodeOf (packR f7 rs2 rs1 f3 rd op) = op := by
  apply BitVec.eq_of_getLsbD_eq; intro j hj
  simp only [opcodeOf, packR, getLsbD_placeAt, BitVec.getLsbD_extractLsb', BitVec.getLsbD_or]
  interval_cases j <;> simp

@[simp] theorem rdOf_packR : rdOf (packR f7 rs2 rs1 f3 rd op) = rd := by
  apply BitVec.eq_of_getLsbD_eq; intro j hj
  simp only [rdOf, packR, getLsbD_placeAt, BitVec.getLsbD_extractLsb', BitVec.getLsbD_or]
  interval_cases j <;> simp

@[simp] theorem funct3Of_packR : funct3Of (packR f7 rs2 rs1 f3 rd op) = f3 := by
  apply BitVec.eq_of_getLsbD_eq; intro j hj
  simp only [funct3Of, packR, getLsbD_placeAt, BitVec.getLsbD_extractLsb', BitVec.getLsbD_or]
  interval_cases j <;> simp

@[simp] theorem rs1Of_packR : rs1Of (packR f7 rs2 rs1 f3 rd op) = rs1 := by
  apply BitVec.eq_of_getLsbD_eq; intro j hj
  simp only [rs1Of, packR, getLsbD_placeAt, BitVec.getLsbD_extractLsb', BitVec.getLsbD_or]
  interval_cases j <;> simp

@[simp] theorem rs2Of_packR : rs2Of (packR f7 rs2 rs1 f3 rd op) = rs2 := by
  apply BitVec.eq_of_getLsbD_eq; intro j hj
  simp only [rs2Of, packR, getLsbD_placeAt, BitVec.getLsbD_extractLsb', BitVec.getLsbD_or]
  interval_cases j <;> simp

@[simp] theorem funct7Of_packR : funct7Of (packR f7 rs2 rs1 f3 rd op) = f7 := by
  apply BitVec.eq_of_getLsbD_eq; intro j hj
  simp only [funct7Of, packR, getLsbD_placeAt, BitVec.getLsbD_extractLsb', BitVec.getLsbD_or]
  interval_cases j <;> simp

end

theorem packR_fields (w : InstrWord) : packR (funct7Of w) (rs2Of w) (rs1Of w) (funct3Of w) (rdOf w) (opcodeOf w) = w := by
  apply BitVec.eq_of_getLsbD_eq; intro j hj
  interval_cases j <;>
    simp only [packR, funct7Of, rs2Of, rs1Of, funct3Of, rdOf, opcodeOf, BitVec.getLsbD_or, getLsbD_placeAt, BitVec.getLsbD_extractLsb',
      Nat.reduceLT, Nat.reduceLeDiff, Nat.reduceSub, Nat.reduceAdd, decide_true, decide_false, Bool.true_and, Bool.false_and,
      Bool.and_false, Bool.or_false, Bool.false_or, le_refl, Nat.zero_le, Nat.sub_self, Nat.lt_irrefl, Nat.ofNat_pos]

/-! ### Layout I -/
section
variable (imm : BitVec 12) (rs1 : RegIdx) (f3 : BitVec 3) (rd : RegIdx) (op : BitVec 7)

@[simp] theorem opcodeOf_packI : opcodeOf (packI imm rs1 f3 rd op) = op := by
  apply BitVec.eq_of_getLsbD_eq; intro j hj
  simp only [opcodeOf, packI, getLsbD_placeAt, BitVec.getLsbD_extractLsb', BitVec.getLsbD_or]
  interval_cases j <;> simp

@[simp] theorem rdOf_packI : rdOf (packI imm rs1 f3 rd op) = rd := by
  apply BitVec.eq_of_getLsbD_eq; intro j hj
  simp only [rdOf, packI, getLsbD_placeAt, BitVec.getLsbD_extractLsb', BitVec.getLsbD_or]
  interval_cases j <;> simp

@[simp] theorem funct3Of_packI : funct3Of (packI imm rs1 f3 rd op) = f3 := by
  apply BitVec.eq_of_getLsbD_eq; intro j hj
  simp only [funct3Of, packI, getLsbD_placeAt, BitVec.getLsbD_extractLsb', BitVec.getLsbD_or]
  interval_cases j <;> simp

@[simp] theorem rs1Of_packI : rs1Of (packI imm rs1 f3 rd op) = rs1 := by
  apply BitVec.eq_of_getLsbD_eq; intro j hj
  simp only [rs1Of, packI, getLsbD_placeAt, BitVec.getLsbD_extractLsb', BitVec.getLsbD_or]
  interval_cases j <;> simp

@[simp] theorem immIOf_packI : immIOf (packI imm rs1 f3 rd op) = imm := by
  apply BitVec.eq_of_getLsbD_eq; intro j hj
  simp only [immIOf, packI, getLsbD_placeAt, BitVec.getLsbD_extractLsb', BitVec.getLsbD_or]
  interval_cases j <;> simp

end

theorem packI_fields (w : InstrWord) : packI (immIOf w) (rs1Of w) (funct3Of w) (rdOf w) (opcodeOf w) = w := by
  apply BitVec.eq_of_getLsbD_eq; intro j hj
  interval_cases j <;>
    simp only [packI, immIOf, rs1Of, funct3Of, rdOf, opcodeOf, BitVec.getLsbD_or, getLsbD_placeAt, BitVec.getLsbD_extractLsb',
      Nat.reduceLT, Nat.reduceLeDiff, Nat.reduceSub, Nat.reduceAdd, decide_true, decide_false, Bool.true_and, Bool.false_and,
      Bool.and_false, Bool.or_false, Bool.false_or, le_refl, Nat.zero_le, Nat.sub_self, Nat.lt_irrefl, Nat.ofNat_pos]

/-! ### Layout Shift -/
section
variable (f6 sh : BitVec 6) (rs1 : RegIdx) (f3 : BitVec 3) (rd : RegIdx) (op : BitVec 7)

@[simp] theorem opcodeOf_packShift : opcodeOf (packShift f6 sh rs1 f3 rd op) = op := by
  apply BitVec.eq_of_getLsbD_eq; intro j hj
  simp only [opcodeOf, packShift, getLsbD_placeAt, BitVec.getLsbD_extractLsb', BitVec.getLsbD_or]
  interval_cases j <;> simp

@[simp] theorem rdOf_packShift : rdOf (packShift f6 sh rs1 f3 rd op) = rd := by
  apply BitVec.eq_of_getLsbD_eq; intro j hj
  simp only [rdOf, packShift, getLsbD_placeAt, BitVec.getLsbD_extractLsb', BitVec.getLsbD_or]
  interval_cases j <;> simp

@[simp] theorem funct3Of_packShift : funct3Of (packShift f6 sh rs1 f3 rd op) = f3 := by
  apply BitVec.eq_of_getLsbD_eq; intro j hj
  simp only [funct3Of, packShift, getLsbD_placeAt, BitVec.getLsbD_extractLsb', BitVec.getLsbD_or]
  interval_cases j <;> simp

@[simp] theorem rs1Of_packShift : rs1Of (packShift f6 sh rs1 f3 rd op) = rs1 := by
  apply BitVec.eq_of_getLsbD_eq; intro j hj
  simp only [rs1Of, packShift, getLsbD_placeAt, BitVec.getLsbD_extractLsb', BitVec.getLsbD_or]
  interval_cases j <;> simp

@[simp] theorem shamtOf_packShift : shamtOf (packShift f6 sh rs1 f3 rd op) = sh := by
  apply BitVec.eq_of_getLsbD_eq; intro j hj
  simp only [shamtOf, packShift, getLsbD_placeAt, BitVec.getLsbD_extractLsb', BitVec.getLsbD_or]
  interval_cases j <;> simp

@[simp] theorem funct6Of_packShift : funct6Of (packShift f6 sh rs1 f3 rd op) = f6 := by
  apply BitVec.eq_of_getLsbD_eq; intro j hj
  simp only [funct6Of, packShift, getLsbD_placeAt, BitVec.getLsbD_extractLsb', BitVec.getLsbD_or]
  interval_cases j <;> simp

end

theorem packShift_fields (w : InstrWord) : packShift (funct6Of w) (shamtOf w) (rs1Of w) (funct3Of w) (rdOf w) (opcodeOf w) = w := by
  apply BitVec.eq_of_getLsbD_eq; intro j hj
  interval_cases j <;>
    simp only [packShift, funct6Of, shamtOf, rs1Of, funct3Of, rdOf, opcodeOf, BitVec.getLsbD_or, getLsbD_placeAt, BitVec.getLsbD_extractLsb',
      Nat.reduceLT, Nat.reduceLeDiff, Nat.reduceSub, Nat.reduceAdd, decide_true, decide_false, Bool.true_and, Bool.false_and,
      Bool.and_false, Bool.or_false, Bool.false_or, le_refl, Nat.zero_le, Nat.sub_self, Nat.lt_irrefl, Nat.ofNat_pos]

/-! ### Layout S -/
section
variable (imm : BitVec 12) (rs2 rs1 : RegIdx) (f3 : BitVec 3) (op : BitVec 7)

@[simp] theorem opcodeOf_packS : opcodeOf (packS imm rs2 rs1 f3 op) = op := by
  apply BitVec.eq_of_getLsbD_eq; intro j hj
  simp only [opcodeOf, packS, getLsbD_placeAt, BitVec.getLsbD_extractLsb', BitVec.getLsbD_or]
  interval_cases j <;> simp

@[simp] theorem funct3Of_packS : funct3Of (packS imm rs2 rs1 f3 op) = f3 := by
  apply BitVec.eq_of_getLsbD_eq; intro j hj
  simp only [funct3Of, packS, getLsbD_placeAt, BitVec.getLsbD_extractLsb', BitVec.getLsbD_or]
  interval_cases j <;> simp

@[simp] theorem rs1Of_packS : rs1Of (packS imm rs2 rs1 f3 op) = rs1 := by
  apply BitVec.eq_of_getLsbD_eq; intro j hj
  simp only [rs1Of, packS, getLsbD_placeAt, BitVec.getLsbD_extractLsb', BitVec.getLsbD_or]
  interval_cases j <;> simp

@[simp] theorem rs2Of_packS : rs2Of (packS imm rs2 rs1 f3 op) = rs2 := by
  apply BitVec.eq_of_getLsbD_eq; intro j hj
  simp only [rs2Of, packS, getLsbD_placeAt, BitVec.getLsbD_extractLsb', BitVec.getLsbD_or]
  interval_cases j <;> simp

@[simp] theorem immSOf_packS : immSOf (packS imm rs2 rs1 f3 op) = imm := by
  apply BitVec.eq_of_getLsbD_eq; intro j hj
  simp only [immSOf, packS, getLsbD_placeAt, BitVec.getLsbD_extractLsb', BitVec.getLsbD_or]
  interval_cases j <;> simp

end

theorem packS_fields (w : InstrWord) : packS (immSOf w) (rs2Of w) (rs1Of w) (funct3Of w) (opcodeOf w) = w := by
  apply BitVec.eq_of_getLsbD_eq; intro j hj
  interval_cases j <;>
    simp only [packS, immSOf, rs2Of, rs1Of, funct3Of, opcodeOf, BitVec.getLsbD_or, getLsbD_placeAt, BitVec.getLsbD_extractLsb',
      Nat.reduceLT, Nat.reduceLeDiff, Nat.reduceSub, Nat.reduceAdd, decide_true, decide_false, Bool.true_and, Bool.false_and,
      Bool.and_false, Bool.or_false, Bool.false_or, le_refl, Nat.zero_le, Nat.sub_self, Nat.lt_irrefl, Nat.ofNat_pos]

/-! ### Layout B -/
section
variable (imm : BitVec 13) (rs2 rs1 : RegIdx) (f3 : BitVec 3) (op : BitVec 7)

@[simp] theorem opcodeOf_packB : opcodeOf (packB imm rs2 rs1 f3 op) = op := by
  apply BitVec.eq_of_getLsbD_eq; intro j hj
  simp only [opcodeOf, packB, getLsbD_placeAt, BitVec.getLsbD_extractLsb', BitVec.getLsbD_or]
  interval_cases j <;> simp

@[simp] theorem funct3Of_packB : funct3Of (packB imm rs2 rs1 f3 op) = f3 := by
  apply BitVec.eq_of_getLsbD_eq; intro j hj
  simp only [funct3Of, packB, getLsbD_placeAt, BitVec.getLsbD_extractLsb', BitVec.getLsbD_or]
  interval_cases j <;> simp

@[simp] theorem rs1Of_packB : rs1Of (packB imm rs2 rs1 f3 op) = rs1 := by
  apply BitVec.eq_of_getLsbD_eq; intro j hj
  simp only [rs1Of, packB, getLsbD_placeAt, BitVec.getLsbD_extractLsb', BitVec.getLsbD_or]
  interval_cases j <;> simp

@[simp] theorem rs2Of_packB : rs2Of (packB imm rs2 rs1 f3 op) = rs2 := by
  apply BitVec.eq_of_getLsbD_eq; intro j hj
  simp only [rs2Of, packB, getLsbD_placeAt, BitVec.getLsbD_extractLsb', BitVec.getLsbD_or]
  interval_cases j <;> simp

theorem immBOf_packB (h : imm.getLsbD 0 = false) : immBOf (packB imm rs2 rs1 f3 op) = imm := by
  apply BitVec.eq_of_getLsbD_eq; intro j hj
  simp only [immBOf, packB, getLsbD_placeAt, BitVec.getLsbD_extractLsb', BitVec.getLsbD_or]
  interval_cases j <;> simp_all

end

theorem packB_fields (w : InstrWord) : packB (immBOf w) (rs2Of w) (rs1Of w) (funct3Of w) (opcodeOf w) = w := by
  apply BitVec.eq_of_getLsbD_eq; intro j hj
  interval_cases j <;>
    simp only [packB, immBOf, rs2Of, rs1Of, funct3Of, opcodeOf, BitVec.getLsbD_or, getLsbD_placeAt, BitVec.getLsbD_extractLsb',
      Nat.reduceLT, Nat.reduceLeDiff, Nat.reduceSub, Nat.reduceAdd, decide_true, decide_false, Bool.true_and, Bool.false_and,
      Bool.and_false, Bool.or_false, Bool.false_or, le_refl, Nat.zero_le, Nat.sub_self, Nat.lt_irrefl, Nat.ofNat_pos, Nat.one_pos]

/-! ### Layout U -/
section
variable (imm : BitVec 32) (rd : RegIdx) (op : BitVec 7)

@[simp] theorem opcodeOf_packU : opcodeOf (packU imm rd op) = op := by
  apply BitVec.eq_of_getLsbD_eq; intro j hj
  simp only [opcodeOf, packU, getLsbD_placeAt, BitVec.getLsbD_extractLsb', BitVec.getLsbD_or]
  interval_cases j <;> simp

@[simp] theorem rdOf_packU : rdOf (packU imm rd op) = rd := by
  apply BitVec.eq_of_getLsbD_eq; intro j hj
  simp only [rdOf, packU, getLsbD_placeAt, BitVec.getLsbD_extractLsb', BitVec.getLsbD_or]
  interval_cases j <;> simp

theorem immUOf_packU (h : imm.extractLsb' 0 12 = 0) : immUOf (packU imm rd op) = imm := by
  have hlow : ∀ j, j < 12 → imm.getLsbD j = false := by
    intro j hj
    have := congrArg (fun b => b.getLsbD j) h
    simpa [BitVec.getLsbD_extractLsb', hj] using this
  apply BitVec.eq_of_getLsbD_eq; intro j hj
  simp only [immUOf, packU, getLsbD_placeAt, BitVec.getLsbD_extractLsb', BitVec.getLsbD_or]
  by_cases h12 : j < 12
  · rw [hlow j h12]; interval_cases j <;> simp
  · interval_cases j <;> first | omega | simp

end

theorem packU_fields (w : InstrWord) : packU (immUOf w) (rdOf w) (opcodeOf w) = w := by
  apply BitVec.eq_of_getLsbD_eq; intro j hj
  interval_cases j <;>
    simp only [packU, immUOf, rdOf, opcodeOf, BitVec.getLsbD_or, getLsbD_placeAt, BitVec.getLsbD_extractLsb',
      Nat.reduceLT, Nat.reduceLeDiff, Nat.reduceSub, Nat.reduceAdd, decide_true, decide_false, Bool.true_and, Bool.false_and,
      Bool.and_false, Bool.or_false, Bool.false_or, le_refl, Nat.zero_le, Nat.sub_self, Nat.lt_irrefl, Nat.ofNat_pos]

/-! ### Layout J -/
section
variable (imm : BitVec 21) (rd : RegIdx) (op : BitVec 7)

@[simp] theorem opcodeOf_packJ : opcodeOf (packJ imm rd op) = op := by
  apply BitVec.eq_of_getLsbD_eq; intro j hj
  simp only [opcodeOf, packJ, getLsbD_placeAt, BitVec.getLsbD_extractLsb', BitVec.getLsbD_or]
  interval_cases j <;> simp

@[simp] theorem rdOf_packJ : rdOf (packJ imm rd op) = rd := by
  apply BitVec.eq_of_getLsbD_eq; intro j hj
  simp only [rdOf, packJ, getLsbD_placeAt, BitVec.getLsbD_extractLsb', BitVec.getLsbD_or]
  interval_cases j <;> simp

theorem immJOf_packJ (h : imm.getLsbD 0 = false) : immJOf (packJ imm rd op) = imm := by
  apply BitVec.eq_of_getLsbD_eq; intro j hj
  simp only [immJOf, packJ, getLsbD_placeAt, BitVec.getLsbD_extractLsb', BitVec.getLsbD_or]
  interval_cases j <;> simp_all

end

theorem packJ_fields (w : InstrWord) : packJ (immJOf w) (rdOf w) (opcodeOf w) = w := by
  apply BitVec.eq_of_getLsbD_eq; intro j hj
  interval_cases j <;>
    simp only [packJ, immJOf, rdOf, opcodeOf, BitVec.getLsbD_or, getLsbD_placeAt, BitVec.getLsbD_extractLsb',
      Nat.reduceLT, Nat.reduceLeDiff, Nat.reduceSub, Nat.reduceAdd, decide_true, decide_false, Bool.true_and, Bool.false_and,
      Bool.and_false, Bool.or_false, Bool.false_or, le_refl, Nat.zero_le, Nat.sub_self, Nat.lt_irrefl, Nat.ofNat_pos, Nat.one_pos]

/-! ### What decode extracts is representable (R63, R66) -/

theorem immBOf_bit0 (w : InstrWord) : (immBOf w).getLsbD 0 = false := by
  simp only [immBOf, BitVec.getLsbD_or, getLsbD_placeAt]; simp
theorem immJOf_bit0 (w : InstrWord) : (immJOf w).getLsbD 0 = false := by
  simp only [immJOf, BitVec.getLsbD_or, getLsbD_placeAt]; simp
theorem immUOf_low (w : InstrWord) : (immUOf w).extractLsb' 0 12 = 0 := by
  apply BitVec.eq_of_getLsbD_eq; intro j hj
  simp only [immUOf, getLsbD_placeAt, BitVec.getLsbD_extractLsb']
  interval_cases j <;> simp

/-- The last branch of `decodeRegImm`. -/
theorem funct3_five (f : BitVec 3) (h0 : f ≠ 0b000#3) (h2 : f ≠ 0b010#3) (h3 : f ≠ 0b011#3) (h4 : f ≠ 0b100#3)
    (h6 : f ≠ 0b110#3) (h7 : f ≠ 0b111#3) (h1 : f ≠ 0b001#3) : f = 0b101#3 := by bv_omega
/-- The last branch of `decodeRegReg`. -/
theorem funct3_seven (f : BitVec 3) (h0 : f ≠ 0b000#3) (h1 : f ≠ 0b001#3) (h2 : f ≠ 0b010#3) (h3 : f ≠ 0b011#3)
    (h4 : f ≠ 0b100#3) (h5 : f ≠ 0b101#3) (h6 : f ≠ 0b110#3) : f = 0b111#3 := by bv_omega

/-! ### The masks of the opcode table -/

theorem and_mask_opcode (w : InstrWord) : w &&& (0x0000007F : InstrWord) = placeAt 32 (opcodeOf w) 0 := by
  apply BitVec.eq_of_getLsbD_eq; intro j hj
  simp only [BitVec.getLsbD_and, opcodeOf, getLsbD_placeAt, BitVec.getLsbD_extractLsb']
  interval_cases j <;> simp

theorem and_mask_funct3 (w : InstrWord) : w &&& (0x0000707F : InstrWord) = placeAt 32 (opcodeOf w) 0 ||| placeAt 32 (funct3Of w) 12 := by
  apply BitVec.eq_of_getLsbD_eq; intro j hj
  simp only [BitVec.getLsbD_and, opcodeOf, funct3Of, getLsbD_placeAt, BitVec.getLsbD_extractLsb', BitVec.getLsbD_or]
  interval_cases j <;> simp

theorem and_mask_funct6 (w : InstrWord) : w &&& (0xFC00707F : InstrWord) = placeAt 32 (opcodeOf w) 0 ||| placeAt 32 (funct3Of w) 12 ||| placeAt 32 (funct6Of w) 26 := by
  apply BitVec.eq_of_getLsbD_eq; intro j hj
  simp only [BitVec.getLsbD_and, opcodeOf, funct3Of, funct6Of, getLsbD_placeAt, BitVec.getLsbD_extractLsb', BitVec.getLsbD_or]
  interval_cases j <;> simp

theorem and_mask_funct7 (w : InstrWord) : w &&& (0xFE00707F : InstrWord) = placeAt 32 (opcodeOf w) 0 ||| placeAt 32 (funct3Of w) 12 ||| placeAt 32 (funct7Of w) 25 := by
  apply BitVec.eq_of_getLsbD_eq; intro j hj
  simp only [BitVec.getLsbD_and, opcodeOf, funct3Of, funct7Of, getLsbD_placeAt, BitVec.getLsbD_extractLsb', BitVec.getLsbD_or]
  interval_cases j <;> simp

end Sys2Proof
end

