-- ==== Sys2Proof/Laws/Memory.lean ====
section
/-! SUPPORT. The laws of buffers: read after write, every other byte left alone, the canonical form kept, and equal
contents are equal data (spec/20_memory.md R43 to R46, R50). -/

namespace Sys2Proof.Machine

/-! ### Cells -/

@[simp] theorem cellGet_erase_self (l : List Host.Cell) (a : Nat) : cellGet (cellErase l a) a = Config.unlistedByte := by
  induction l with
  | nil => rfl
  | cons c rest ih =>
    obtain ⟨k, v⟩ := c
    by_cases h : k = a <;> simp [cellErase, cellGet, h, ih]

theorem cellGet_erase_ne (l : List Host.Cell) {a b : Nat} (h : b ≠ a) : cellGet (cellErase l a) b = cellGet l b := by
  induction l with
  | nil => rfl
  | cons c rest ih =>
    obtain ⟨k, v⟩ := c
    by_cases hk : k = a
    · subst hk; simp [cellErase, cellGet, ih, Ne.symm h]
    · simp [cellErase, cellGet, hk, ih]

theorem cellGet_insert_self (l : List Host.Cell) (a : Nat) (b : Byte) (h : ∀ c ∈ l, c.1 ≠ a) :
    cellGet (cellInsert l a b) a = b := by
  induction l with
  | nil => simp [cellInsert, cellGet]
  | cons c rest ih =>
    obtain ⟨k, v⟩ := c
    have hk : k ≠ a := h (k, v) (by simp)
    have hr : ∀ c ∈ rest, c.1 ≠ a := fun c hc => h c (by simp [hc])
    by_cases hlt : a < k <;> simp [cellInsert, cellGet, hlt, hk, ih hr]

theorem cellGet_insert_ne (l : List Host.Cell) (a : Nat) (b : Byte) {x : Nat} (h : x ≠ a) :
    cellGet (cellInsert l a b) x = cellGet l x := by
  induction l with
  | nil => simp [cellInsert, cellGet, Ne.symm h]
  | cons c rest ih =>
    obtain ⟨k, v⟩ := c
    by_cases hlt : a < k <;> simp [cellInsert, cellGet, hlt, Ne.symm h, ih]

theorem erase_no_key (l : List Host.Cell) (a : Nat) : ∀ c ∈ cellErase l a, c.1 ≠ a := by
  induction l with
  | nil => simp [cellErase]
  | cons c rest ih =>
    obtain ⟨k, v⟩ := c
    by_cases hk : k = a
    · simpa [cellErase, hk] using ih
    · intro c hc
      simp only [cellErase, hk, if_false, List.mem_cons] at hc
      rcases hc with rfl | hc
      · exact hk
      · exact ih c hc

/-- Read after write, of the same address and of another: for every list, canonical or not. -/
theorem cellGet_set (l : List Host.Cell) (a x : Nat) (b : Byte) :
    cellGet (cellSet l a b) x = if x = a then b else cellGet l x := by
  unfold cellSet
  by_cases hx : x = a
  · subst hx
    rw [if_pos rfl]
    split
    next h => rw [cellGet_erase_self, h]
    next => exact cellGet_insert_self _ _ _ (erase_no_key l x)
  · rw [if_neg hx]
    split
    · exact cellGet_erase_ne l hx
    · rw [cellGet_insert_ne _ _ _ hx, cellGet_erase_ne l hx]

/-! ### The canonical form -/

theorem cellsWf_cons {hi lo k : Nat} {v : Byte} {rest : List Host.Cell} :
    cellsWf hi lo ((k, v) :: rest) = true ↔
      lo ≤ k ∧ k < hi ∧ v ≠ Config.unlistedByte ∧ cellsWf hi (k + 1) rest = true := by
  simp [cellsWf, and_assoc]

theorem cellsWf_mono {hi lo lo' : Nat} (l : List Host.Cell) (h : lo' ≤ lo) (hw : cellsWf hi lo l = true) :
    cellsWf hi lo' l = true := by
  cases l with
  | nil => rfl
  | cons c rest =>
    obtain ⟨k, v⟩ := c
    rw [cellsWf_cons] at hw ⊢
    exact ⟨h.trans hw.1, hw.2⟩

theorem cellsWf_hi {hi hi' lo : Nat} (l : List Host.Cell) (h : hi ≤ hi') (hw : cellsWf hi lo l = true) :
    cellsWf hi' lo l = true := by
  induction l generalizing lo with
  | nil => rfl
  | cons c rest ih =>
    obtain ⟨k, v⟩ := c
    rw [cellsWf_cons] at hw ⊢
    exact ⟨hw.1, hw.2.1.trans_le h, hw.2.2.1, ih hw.2.2.2⟩

theorem cellErase_wf {hi lo : Nat} (l : List Host.Cell) (a : Nat) (hw : cellsWf hi lo l = true) :
    cellsWf hi lo (cellErase l a) = true := by
  induction l generalizing lo with
  | nil => rfl
  | cons c rest ih =>
    obtain ⟨k, v⟩ := c
    rw [cellsWf_cons] at hw
    by_cases hk : k = a
    · simp only [cellErase, hk, if_true]
      exact cellsWf_mono _ (by omega) (ih hw.2.2.2)
    · simp only [cellErase, hk, if_false]
      rw [cellsWf_cons]
      exact ⟨hw.1, hw.2.1, hw.2.2.1, ih hw.2.2.2⟩

theorem cellInsert_wf {hi lo a : Nat} {b : Byte} (l : List Host.Cell) (hw : cellsWf hi lo l = true)
    (hk : ∀ c ∈ l, c.1 ≠ a) (hlo : lo ≤ a) (hhi : a < hi) (hb : b ≠ Config.unlistedByte) :
    cellsWf hi lo (cellInsert l a b) = true := by
  induction l generalizing lo with
  | nil => simp [cellInsert, cellsWf, hlo, hhi, hb]
  | cons c rest ih =>
    obtain ⟨k, v⟩ := c
    rw [cellsWf_cons] at hw
    have hka : k ≠ a := hk (k, v) (by simp)
    by_cases hlt : a < k
    · simp only [cellInsert, hlt, if_true]
      rw [cellsWf_cons, cellsWf_cons]
      exact ⟨hlo, hhi, hb, by omega, hw.2⟩
    · simp only [cellInsert, hlt, if_false]
      rw [cellsWf_cons]
      exact ⟨hw.1, hw.2.1, hw.2.2.1, ih hw.2.2.2 (fun c hc => hk c (by simp [hc])) (by omega)⟩

theorem cellSet_wf {hi lo a : Nat} (l : List Host.Cell) (b : Byte) (hw : cellsWf hi lo l = true)
    (hlo : lo ≤ a) (hhi : a < hi) : cellsWf hi lo (cellSet l a b) = true := by
  unfold cellSet
  split
  next => exact cellErase_wf l a hw
  next h => exact cellInsert_wf _ (cellErase_wf l a hw) (erase_no_key l a) hlo hhi h

theorem cellGet_below {hi lo x : Nat} (l : List Host.Cell) (hw : cellsWf hi lo l = true) (hx : x < lo) :
    cellGet l x = Config.unlistedByte := by
  induction l generalizing lo with
  | nil => rfl
  | cons c rest ih =>
    obtain ⟨k, v⟩ := c
    rw [cellsWf_cons] at hw
    have : k ≠ x := by omega
    simp only [cellGet, this, if_false]
    exact ih hw.2.2.2 (by omega)

/-- Canonical lists that read alike are equal. -/
theorem cellsWf_ext {hi lo : Nat} (l m : List Host.Cell) (hl : cellsWf hi lo l = true) (hm : cellsWf hi lo m = true)
    (h : ∀ x, cellGet l x = cellGet m x) : l = m := by
  induction l generalizing lo m with
  | nil =>
    cases m with
    | nil => rfl
    | cons c rest =>
      obtain ⟨k, v⟩ := c
      rw [cellsWf_cons] at hm
      have := h k
      simp only [cellGet, if_true] at this
      exact absurd this.symm hm.2.2.1
  | cons c rest ih =>
    obtain ⟨k, v⟩ := c
    rw [cellsWf_cons] at hl
    cases m with
    | nil =>
      have := h k
      simp only [cellGet, if_true] at this
      exact absurd this hl.2.2.1
    | cons d rest' =>
      obtain ⟨k', v'⟩ := d
      rw [cellsWf_cons] at hm
      have hkk : k = k' := by
        rcases Nat.lt_trichotomy k k' with hlt | heq | hgt
        · have := h k
          have hne : k' ≠ k := by omega
          simp only [cellGet, if_true, hne, if_false] at this
          rw [cellGet_below rest' hm.2.2.2 (by omega)] at this
          exact absurd this hl.2.2.1
        · exact heq
        · have := h k'
          have hne : k ≠ k' := by omega
          simp only [cellGet, if_true, hne, if_false] at this
          rw [cellGet_below rest hl.2.2.2 (by omega)] at this
          exact absurd this.symm hm.2.2.1
      subst hkk
      have hvv : v = v' := by simpa [cellGet] using h k
      subst hvv
      have hr : ∀ x, cellGet rest x = cellGet rest' x := by
        intro x
        by_cases hx : k = x
        · subst hx
          rw [cellGet_below rest hl.2.2.2 (by omega), cellGet_below rest' hm.2.2.2 (by omega)]
        · simpa [cellGet, hx] using h x
      rw [ih rest' hl.2.2.2 hm.2.2.2 hr]

theorem cellsOfBytes_wf (a : Nat) (bytes : List Byte) : cellsWf (a + bytes.length) a (cellsOfBytes a bytes) = true := by
  induction bytes generalizing a with
  | nil => rfl
  | cons b rest ih =>
    have h := ih (a + 1)
    rw [show a + 1 + rest.length = a + (b :: rest).length by simp; omega] at h
    unfold cellsOfBytes
    split
    next => exact cellsWf_mono _ (by omega) h
    next hb => rw [cellsWf_cons]; exact ⟨le_refl a, by simp, hb, h⟩

theorem cellGet_ofBytes (a i : Nat) (bytes : List Byte) (hi : i < bytes.length) :
    cellGet (cellsOfBytes a bytes) (a + i) = bytes[i] := by
  induction bytes generalizing a i with
  | nil => simp at hi
  | cons b rest ih =>
    have hw := cellsOfBytes_wf (a + 1) rest
    cases i with
    | zero =>
      unfold cellsOfBytes
      split
      next hb => simpa [hb] using cellGet_below _ hw (Nat.lt_succ_self a)
      next => simp [cellGet]
    | succ i =>
      have h := ih (a + 1) i (by simpa using hi)
      rw [show a + 1 + i = a + (i + 1) by omega] at h
      unfold cellsOfBytes
      split
      next => simpa using h
      next => simpa [cellGet] using h

/-! ### Buffers -/

@[simp] theorem setByte_len (m : Memory) (a : Nat) (b : Byte) : (m.setByte a b).len = m.len := rfl

theorem byteAt_setByte (m : Memory) (a x : Nat) (b : Byte) :
    (m.setByte a b).byteAt x = if x = a then b else m.byteAt x := cellGet_set m.cells a x b

theorem setByte_wf (m : Memory) (a : Nat) (b : Byte) (hw : m.wf = true) (ha : a < m.len) : (m.setByte a b).wf = true :=
  cellSet_wf m.cells b hw (Nat.zero_le a) ha

theorem Memory_ext (m m' : Memory) (hw : m.wf = true) (hw' : m'.wf = true) (hl : m.len = m'.len)
    (h : ∀ a, m.byteAt a = m'.byteAt a) : m = m' := by
  obtain ⟨n, l⟩ := m
  obtain ⟨n', l'⟩ := m'
  have hl' : n = n' := hl
  subst hl'
  exact congrArg (Memory.mk n) (cellsWf_ext l l' hw hw' h)

theorem ofBytes_wf (bytes : List Byte) : (Memory.ofBytes bytes).wf = true := by
  have := cellsOfBytes_wf 0 bytes
  rwa [Nat.zero_add] at this

theorem ofBytes_byteAt (bytes : List Byte) (i : Nat) (hi : i < bytes.length) : (Memory.ofBytes bytes).byteAt i = bytes[i] := by
  have := cellGet_ofBytes 0 i bytes hi
  rwa [Nat.zero_add] at this

@[simp] theorem writeLE_len (m : Memory) (a n : Nat) (v : Word) : (m.writeLE a n v).len = m.len := by
  induction n generalizing m a v with
  | zero => rfl
  | succ n ih => simp [Memory.writeLE, ih]

theorem writeLE_wf (m : Memory) (a n : Nat) (v : Word) (hw : m.wf = true) (h : a + n ≤ m.len) :
    (m.writeLE a n v).wf = true := by
  induction n generalizing m a v with
  | zero => exact hw
  | succ n ih => exact ih _ _ _ (setByte_wf m a _ hw (by omega)) (by rw [setByte_len]; omega)

/-- Byte `k` of the value stands at `a + k`; every address outside the stored bytes reads as before. -/
theorem byteAt_writeLE (m : Memory) (a n x : Nat) (v : Word) :
    (m.writeLE a n v).byteAt x =
      if a ≤ x ∧ x < a + n then v.extractLsb' (8 * (x - a)) 8 else m.byteAt x := by
  induction n generalizing m a v with
  | zero => rw [if_neg (by omega)]; rfl
  | succ n ih =>
    show ((m.setByte a (v.setWidth 8)).writeLE (a + 1) n (v >>> 8)).byteAt x = _
    rw [ih, byteAt_setByte]
    by_cases hx : x = a
    · subst hx
      rw [if_neg (by omega), if_pos rfl, if_pos (by omega)]
      apply BitVec.eq_of_getLsbD_eq
      intro j hj
      simp [BitVec.getLsbD_extractLsb', BitVec.getLsbD_setWidth]
    · by_cases hin : a + 1 ≤ x ∧ x < a + 1 + n
      · rw [if_pos hin, if_pos (by omega)]
        apply BitVec.eq_of_getLsbD_eq
        intro j hj
        simp only [BitVec.getLsbD_extractLsb', BitVec.getLsbD_ushiftRight]
        congr 2
        omega
      · rw [if_neg hin, if_neg hx, if_neg (by omega)]

/-- Bit `j` of a little-endian read is bit `j % 8` of the byte `j / 8` above. -/
theorem getLsbD_readLE (m : Memory) (a n j : Nat) (hn : n ≤ 8) :
    (m.readLE a n).getLsbD j = (decide (j < 8 * n) && (m.byteAt (a + j / 8)).getLsbD (j % 8)) := by
  induction n generalizing a j with
  | zero => simp [Memory.readLE]
  | succ n ih =>
    show ((m.byteAt a).setWidth 64 ||| (m.readLE (a + 1) n <<< 8)).getLsbD j = _
    rw [BitVec.getLsbD_or, BitVec.getLsbD_setWidth, BitVec.getLsbD_shiftLeft, ih _ _ (by omega)]
    by_cases hj : j < 8
    · have h1 : j / 8 = 0 := by omega
      have h2 : j % 8 = j := by omega
      have h3 : j < 8 * (n + 1) := by omega
      have h4 : j < 64 := by omega
      simp only [h1, h2, h3, h4, hj, Nat.add_zero, decide_true, Bool.true_and, Bool.not_true, Bool.and_false,
        Bool.false_and, Bool.or_false]
    · have hb : (m.byteAt a).getLsbD j = false := BitVec.getLsbD_of_ge _ _ (by omega)
      have h1 : a + 1 + (j - 8) / 8 = a + j / 8 := by omega
      have h2 : (j - 8) % 8 = j % 8 := by omega
      rw [hb, h1, h2]
      by_cases hlt : j < 8 * (n + 1)
      · have h3 : j - 8 < 8 * n := by omega
        have h4 : j < 64 := by omega
        simp only [h3, h4, hj, hlt, decide_true, decide_false, Bool.true_and, Bool.not_false, Bool.and_false,
          Bool.false_or]
      · have h3 : ¬ (j - 8 < 8 * n) := by omega
        simp only [h3, hlt, decide_false, Bool.false_and, Bool.and_false, Bool.or_false]

/-- Two buffers that agree on the bytes of an access read alike. -/
theorem readLE_congr (m m' : Memory) (a n : Nat) (h : ∀ k, k < n → m.byteAt (a + k) = m'.byteAt (a + k)) :
    m.readLE a n = m'.readLE a n := by
  induction n generalizing a with
  | zero => rfl
  | succ n ih =>
    have h0 := h 0 (by omega)
    have hr := ih (a + 1) (fun k hk => by
      have := h (k + 1) (by omega)
      rwa [show a + (k + 1) = a + 1 + k by omega] at this)
    show (m.byteAt a).setWidth 64 ||| (m.readLE (a + 1) n <<< 8) = (m'.byteAt a).setWidth 64 ||| (m'.readLE (a + 1) n <<< 8)
    rw [hr, show m.byteAt a = m'.byteAt a from h0]

/-- What was written is read back. -/
theorem readLE_writeLE (m : Memory) (a n : Nat) (v : Word) (hn : n ≤ 8) (j : Nat) :
    ((m.writeLE a n v).readLE a n).getLsbD j = (decide (j < 8 * n) && v.getLsbD j) := by
  rw [getLsbD_readLE _ _ _ _ hn]
  by_cases hj : j < 8 * n
  · have : j / 8 < n := by omega
    rw [byteAt_writeLE, if_pos (by omega), BitVec.getLsbD_extractLsb']
    have h1 : 8 * (a + j / 8 - a) + j % 8 = j := by omega
    have h2 : j % 8 < 8 := by omega
    simp only [hj, h1, h2, decide_true, Bool.true_and]
  · simp only [hj, decide_false, Bool.false_and]

/-- A narrower read inside what was written sees those bytes of the value (R43). -/
theorem readLE_inside (m : Memory) (a o n w : Nat) (v : Word) (h : o + n ≤ w) (hn : n ≤ 8) (j : Nat) :
    ((m.writeLE a w v).readLE (a + o) n).getLsbD j = (decide (j < 8 * n) && v.getLsbD (8 * o + j)) := by
  rw [getLsbD_readLE _ _ _ _ hn]
  by_cases hj : j < 8 * n
  · rw [byteAt_writeLE, if_pos (by omega), BitVec.getLsbD_extractLsb']
    have h1 : 8 * (a + o + j / 8 - a) + j % 8 = 8 * o + j := by omega
    have h2 : j % 8 < 8 := by omega
    simp only [hj, h1, h2, decide_true, Bool.true_and]
  · simp only [hj, decide_false, Bool.false_and]

@[simp] theorem setBytes_len (m : Memory) (a : Nat) (bytes : List Byte) : (m.setBytes a bytes).len = m.len := by
  induction bytes generalizing m a with
  | nil => rfl
  | cons b rest ih => simp [Memory.setBytes, ih]

theorem setBytes_wf (m : Memory) (a : Nat) (bytes : List Byte) (hw : m.wf = true) (h : a + bytes.length ≤ m.len) :
    (m.setBytes a bytes).wf = true := by
  induction bytes generalizing m a with
  | nil => exact hw
  | cons b rest ih =>
    simp only [List.length_cons] at h
    exact ih _ _ (setByte_wf m a b hw (by omega)) (by rw [setByte_len]; omega)

theorem byteAt_setBytes_out (m : Memory) (a x : Nat) (bytes : List Byte) (h : x < a ∨ a + bytes.length ≤ x) :
    (m.setBytes a bytes).byteAt x = m.byteAt x := by
  induction bytes generalizing m a with
  | nil => rfl
  | cons b rest ih =>
    simp only [List.length_cons] at h
    show ((m.setByte a b).setBytes (a + 1) rest).byteAt x = _
    rw [ih _ _ (by omega), byteAt_setByte, if_neg (by omega)]

theorem byteAt_setBytes_in (m : Memory) (a i : Nat) (bytes : List Byte) (hi : i < bytes.length) :
    (m.setBytes a bytes).byteAt (a + i) = bytes[i] := by
  induction bytes generalizing m a i with
  | nil => simp at hi
  | cons b rest ih =>
    show ((m.setByte a b).setBytes (a + 1) rest).byteAt (a + i) = _
    cases i with
    | zero =>
      rw [byteAt_setBytes_out _ _ _ _ (by omega), byteAt_setByte, if_pos (by omega)]; rfl
    | succ i =>
      rw [show a + (i + 1) = a + 1 + i by omega, ih _ _ _ (by simpa using hi)]; rfl

theorem bytesAt_length (m : Memory) (a n : Nat) : (m.bytesAt a n).length = n := by
  induction n generalizing a with
  | zero => rfl
  | succ n ih => simp [Memory.bytesAt, ih]

theorem bytesAt_getElem (m : Memory) (a n i : Nat) (hi : i < (m.bytesAt a n).length) :
    (m.bytesAt a n)[i] = m.byteAt (a + i) := by
  induction n generalizing a i with
  | zero => simp [Memory.bytesAt] at hi
  | succ n ih =>
    cases i with
    | zero => rfl
    | succ i =>
      have hi' : i < (m.bytesAt (a + 1) n).length := by
        rw [bytesAt_length] at hi ⊢; omega
      show (m.bytesAt (a + 1) n)[i] = _
      rw [ih _ _ hi', show a + 1 + i = a + (i + 1) by omega]

theorem inBounds_iff (m : Memory) (a n : Nat) : m.inBounds a n = true ↔ a + n ≤ m.len := by simp [Memory.inBounds]

end Sys2Proof.Machine
end

