-- ==== Sys2Proof/Laws/Exec.lean ====
section
/-! SUPPORT. What the shared operations of the meanings can do, once for each: the operands at each width, `complete`,
`branch`, `load`, `store`, the access primitives, and the shape of every instruction's effect. -/

namespace Sys2Proof.Machine

/-! ### Operands at each width (R15, R16) -/

theorem x_eq_low32 {s : State} (h : s.w32 = true) (i : RegIdx) : s.x i = low32 (s.readCell i) := trunc_true h _
theorem x_eq_cell {s : State} (h : s.w32 = false) (i : RegIdx) : s.x i = s.readCell i := trunc_false h _

theorem setWidth_x (s : State) (i : RegIdx) : (s.x i).setWidth 32 = (s.readCell i).setWidth 32 := by
  unfold State.x State.trunc; split
  · exact setWidth_low32 _
  · rfl

theorem sx_eq_signExtend {s : State} (h : s.w32 = true) (i : RegIdx) :
    s.sx i = ((s.readCell i).setWidth 32).signExtend 64 := by
  unfold State.sx State.readSignExtended; rw [if_pos h]; exact signExtendAt_31 _

theorem sx_eq_cell {s : State} (h : s.w32 = false) (i : RegIdx) : s.sx i = s.readCell i := by
  unfold State.sx State.readSignExtended; rw [if_neg (by simp [h])]

theorem setWidth_trunc (s : State) (v : Word) : (s.trunc v).setWidth 32 = v.setWidth 32 := by
  unfold State.trunc; split
  · exact setWidth_low32 _
  · rfl

theorem setWidth_immI (s : State) (m : BitVec 12) : (s.immI m).setWidth 32 = m.signExtend 32 := by
  unfold State.immI; rw [setWidth_trunc, setWidth_sext m (by decide) (by decide)]
theorem setWidth_immS (s : State) (m : BitVec 12) : (s.immS m).setWidth 32 = m.signExtend 32 := by
  unfold State.immS; rw [setWidth_trunc, setWidth_sext m (by decide) (by decide)]
theorem setWidth_immU (s : State) (m : BitVec 32) : (s.immU m).setWidth 32 = m := by
  unfold State.immU; rw [setWidth_trunc, setWidth_sext m (by decide) (by decide), BitVec.signExtend_eq]

theorem immI_native {s : State} (h : s.w32 = false) (m : BitVec 12) : s.immI m = m.signExtend 64 := by
  unfold State.immI; rw [trunc_false h, sext_eq_signExtend m (by decide) (by decide)]
theorem immS_native {s : State} (h : s.w32 = false) (m : BitVec 12) : s.immS m = m.signExtend 64 := by
  unfold State.immS; rw [trunc_false h, sext_eq_signExtend m (by decide) (by decide)]
theorem immU_native {s : State} (h : s.w32 = false) (m : BitVec 32) : s.immU m = m.signExtend 64 := by
  unfold State.immU; rw [trunc_false h, sext_eq_signExtend m (by decide) (by decide)]

theorem setWidth_pcX (s : State) : s.pcX.setWidth 32 = s.pc.setWidth 32 := setWidth_trunc s _
theorem pcX_native {s : State} (h : s.w32 = false) : s.pcX = s.pc := trunc_false h _

/-- The address formula of loads and stores is one (R160). -/
theorem loadAddr_eq_storeAddr (s : State) (rs1 : RegIdx) (m : BitVec 12) : s.loadAddr rs1 m = s.storeAddr rs1 m := rfl

theorem shiftAmount_narrow {s : State} (h : s.w32 = true) (a : Word) : s.shiftAmount a = a.toNat % 32 := by
  unfold State.shiftAmount; rw [if_pos h, BitVec.toNat_and]; exact Nat.and_two_pow_sub_one_eq_mod a.toNat 5
theorem shiftAmount_native {s : State} (h : s.w32 = false) (a : Word) : s.shiftAmount a = a.toNat % 64 := by
  unfold State.shiftAmount; rw [if_neg (by simp [h]), BitVec.toNat_and]; exact Nat.and_two_pow_sub_one_eq_mod a.toNat 6

/-! ### Comparisons at each width (R103, R104, R125, R126, R144 to R149) -/

theorem condEq_narrow {s : State} (h : s.w32 = true) (a b : RegIdx) :
    s.condEq a b = ((s.readCell a).setWidth 32 == (s.readCell b).setWidth 32) := by
  unfold State.condEq; rw [x_eq_low32 h, x_eq_low32 h, Bool.eq_iff_iff, beq_iff_eq, beq_iff_eq]
  refine ⟨fun h => ?_, fun h => by unfold low32; rw [h]⟩
  have := congrArg (BitVec.setWidth 32) h; simpa only [setWidth_low32] using this
theorem condLt_narrow {s : State} (h : s.w32 = true) (a b : RegIdx) :
    s.condLt a b = ((s.readCell a).setWidth 32).slt ((s.readCell b).setWidth 32) := by
  unfold State.condLt; rw [sx_eq_signExtend h, sx_eq_signExtend h, slt_signExtend64]
theorem condLtu_narrow {s : State} (h : s.w32 = true) (a b : RegIdx) :
    s.condLtu a b = ((s.readCell a).setWidth 32).ult ((s.readCell b).setWidth 32) := by
  unfold State.condLtu; rw [x_eq_low32 h, x_eq_low32 h]; exact ult_setWidth64 _ _
theorem condLtImm_narrow {s : State} (h : s.w32 = true) (a : RegIdx) (m : BitVec 12) :
    s.condLtImm a m = ((s.readCell a).setWidth 32).slt (m.signExtend 32) := by
  unfold State.condLtImm; rw [sx_eq_signExtend h, sext_eq_signExtend m (by decide) (by decide)]
  simp [BitVec.slt, BitVec.toInt_signExtend]
theorem condLtuImm_narrow {s : State} (h : s.w32 = true) (a : RegIdx) (m : BitVec 12) :
    s.condLtuImm a m = ((s.readCell a).setWidth 32).ult (m.signExtend 32) := by
  unfold State.condLtuImm
  rw [x_eq_low32 h, show s.immI m = (m.signExtend 32).setWidth 64 by
    unfold State.immI; rw [trunc_true h]; exact low32_eq_of _ _ (setWidth_sext m (by decide) (by decide))]
  exact ult_setWidth64 _ _

theorem condEq_native {s : State} (h : s.w32 = false) (a b : RegIdx) : s.condEq a b = (s.readCell a == s.readCell b) := by
  unfold State.condEq; rw [x_eq_cell h, x_eq_cell h]
theorem condLt_native {s : State} (h : s.w32 = false) (a b : RegIdx) :
    s.condLt a b = (s.readCell a).slt (s.readCell b) := by unfold State.condLt; rw [sx_eq_cell h, sx_eq_cell h]
theorem condLtu_native {s : State} (h : s.w32 = false) (a b : RegIdx) :
    s.condLtu a b = (s.readCell a).ult (s.readCell b) := by unfold State.condLtu; rw [x_eq_cell h, x_eq_cell h]

/-! ### How an instruction ends -/

theorem complete_eq (s : State) (rd : RegIdx) (r : Word) :
    s.complete rd r = .next ((s.writeReg rd r).writePc (s.pc + 4)) := by
  unfold State.complete; rw [advance_eq, writeReg_pc]

theorem branch_taken (s : State) (m : BitVec 13) : s.branch true m = .next (s.writePc (s.pc + offsetB m)) := rfl

theorem branch_not_taken (s : State) (m : BitVec 13) : s.branch false m = .next (s.writePc (s.pc + 4)) := by
  unfold State.branch; rw [advance_eq]; rfl

theorem branch_eq (s : State) (taken : Bool) (m : BitVec 13) :
    s.branch taken m = .next (s.writePc (s.pc + if taken then offsetB m else 4)) := by
  unfold State.branch
  cases taken
  · rw [advance_eq]; rfl
  · rfl

/-! ### The access primitives (R44 to R46) -/

theorem memRead_some (s : State) (addr : Word) (size : AccessSize) (h : addr.toNat + size.bytes ≤ s.mem.len) :
    s.memRead addr size = some (s.mem.readLE addr.toNat size.bytes) := if_pos (by simpa [Memory.inBounds] using h)
theorem memRead_none (s : State) (addr : Word) (size : AccessSize) (h : s.mem.len < addr.toNat + size.bytes) :
    s.memRead addr size = none := if_neg (by simpa [Memory.inBounds] using h)
theorem memWrite_some (s : State) (addr : Word) (size : AccessSize) (v : Word) (h : addr.toNat + size.bytes ≤ s.mem.len) :
    s.memWrite addr size v = some { s with mem := s.mem.writeLE addr.toNat size.bytes v } :=
  if_pos (by simpa [Memory.inBounds] using h)
theorem memWrite_none (s : State) (addr : Word) (size : AccessSize) (v : Word) (h : s.mem.len < addr.toNat + size.bytes) :
    s.memWrite addr size v = none := if_neg (by simpa [Memory.inBounds] using h)
theorem codeRead_some (s : State) (addr : Word) (h : addr.toNat + 4 ≤ s.code.len) :
    s.codeRead addr = some ((s.code.readLE addr.toNat 4).setWidth 32) := if_pos (by simpa [Memory.inBounds] using h)
theorem codeRead_none (s : State) (addr : Word) (h : s.code.len < addr.toNat + 4) : s.codeRead addr = none :=
  if_neg (by simpa [Memory.inBounds] using h)

theorem load_inBounds (s : State) (size : AccessSize) (sg : Bool) (rd rs1 : RegIdx) (m : BitVec 12)
    (h : (s.loadAddr rs1 m).toNat + size.bytes ≤ s.mem.len) :
    s.load size sg rd rs1 m = s.complete rd (loadExtend size sg (s.mem.readLE (s.loadAddr rs1 m).toNat size.bytes)) := by
  unfold State.load; rw [memRead_some s _ _ h]

theorem load_outOfBounds (s : State) (size : AccessSize) (sg : Bool) (rd rs1 : RegIdx) (m : BitVec 12)
    (h : s.mem.len < (s.loadAddr rs1 m).toNat + size.bytes) :
    s.load size sg rd rs1 m = .next (s.raise (.memBounds s.pcX (s.loadAddr rs1 m) size .read)) := by
  unfold State.load; rw [memRead_none s _ _ h]

theorem store_inBounds (s : State) (size : AccessSize) (rs1 rs2 : RegIdx) (m : BitVec 12)
    (h : (s.storeAddr rs1 m).toNat + size.bytes ≤ s.mem.len) :
    s.store size rs1 rs2 m = .next (State.writePc
      { s with mem := s.mem.writeLE (s.storeAddr rs1 m).toNat size.bytes (s.x rs2) } (s.pc + 4)) := by
  unfold State.store; rw [memWrite_some s _ _ _ h]; simp only [advance_eq]

theorem store_outOfBounds (s : State) (size : AccessSize) (rs1 rs2 : RegIdx) (m : BitVec 12)
    (h : s.mem.len < (s.storeAddr rs1 m).toNat + size.bytes) :
    s.store size rs1 rs2 m = .next (s.raise (.memBounds s.pcX (s.storeAddr rs1 m) size .write)) := by
  unfold State.store; rw [memWrite_none s _ _ _ h]

/-! ### The shape of every instruction's effect -/

/-- What an instruction can do: write at most one register and move the pc, store bytes that exist and advance, or take a
fault. The new pc of a well-formed instruction is even if the old one was (R26). -/
inductive Effect (i : Instr) (s : State) : State → Prop
  /-- `rd` = 0 is the instruction that writes no register. -/
  | reg (rd : RegIdx) (r p : Word) (hp : i.wellFormed = true → s.pc.getLsbD 0 = false → p.getLsbD 0 = false) :
      Effect i s ((s.writeReg rd r).writePc p)
  | stored (a n : Nat) (v : Word) (h : a + n ≤ s.mem.len) :
      Effect i s (State.writePc { s with mem := s.mem.writeLE a n v } (s.pc + 4))
  | fault (addr : Word) (size : AccessSize) (dir : AccessDir) (h : s.mem.len < addr.toNat + size.bytes) :
      Effect i s (s.raise (.memBounds s.pcX addr size dir))

theorem add_bit0 (a b : Word) (hb : b.getLsbD 0 = false) : (a + b).getLsbD 0 = a.getLsbD 0 := by
  simp only [BitVec.getLsbD_add (i := 0) (by decide : 0 < 64) a b, hb, BitVec.carry_zero, Bool.xor_false]

theorem sext_bit0 {n : Nat} (v : BitVec n) (h0 : 0 < n) (h : n ≤ 64) : (sext v).getLsbD 0 = v.getLsbD 0 := by
  rw [sext_eq_signExtend v h0 h, BitVec.getLsbD_signExtend]; simp [h0]

theorem add4_even (i : Instr) (s : State) : i.wellFormed = true → s.pc.getLsbD 0 = false → (s.pc + 4).getLsbD 0 = false :=
  fun _ h => by rw [add_bit0 s.pc 4 (by decide)]; exact h

theorem complete_effect (i : Instr) (s : State) (rd : RegIdx) (r : Word) : ∃ t, s.complete rd r = .next t ∧ Effect i s t :=
  ⟨_, complete_eq s rd r, .reg rd r _ (add4_even i s)⟩

theorem advance_effect (i : Instr) (s : State) : ∃ t, Host.Outcome.next (φ := Fault) (ρ := Refusal) s.advance = .next t ∧ Effect i s t :=
  ⟨_, rfl, by rw [advance_eq, ← writeReg_zero s 0]; exact .reg 0 0 _ (add4_even i s)⟩

theorem branch_effect (i : Instr) (s : State) (taken : Bool) (m : BitVec 13)
    (hm : i.wellFormed = true → m.getLsbD 0 = false) : ∃ t, s.branch taken m = .next t ∧ Effect i s t := by
  refine ⟨_, branch_eq s taken m, ?_⟩
  have := Effect.reg (i := i) (s := s) 0 0 (s.pc + if taken then offsetB m else 4) (fun hi hpc => by
    rw [add_bit0 _ _ (by
      cases taken
      · rw [if_neg (by decide)]; decide
      · exact (sext_bit0 m (by decide) (by decide)).trans (hm hi))]
    exact hpc)
  rwa [writeReg_zero] at this

theorem load_effect (i : Instr) (s : State) (size : AccessSize) (sg : Bool) (rd rs1 : RegIdx) (m : BitVec 12) :
    ∃ t, s.load size sg rd rs1 m = .next t ∧ Effect i s t := by
  rcases Nat.lt_or_ge s.mem.len ((s.loadAddr rs1 m).toNat + size.bytes) with h | h
  · exact ⟨_, load_outOfBounds s size sg rd rs1 m h, .fault _ _ _ h⟩
  · rw [load_inBounds s size sg rd rs1 m h]; exact complete_effect i s _ _

theorem store_effect (i : Instr) (s : State) (size : AccessSize) (rs1 rs2 : RegIdx) (m : BitVec 12) :
    ∃ t, s.store size rs1 rs2 m = .next t ∧ Effect i s t := by
  rcases Nat.lt_or_ge s.mem.len ((s.storeAddr rs1 m).toNat + size.bytes) with h | h
  · exact ⟨_, store_outOfBounds s size rs1 rs2 m h, .fault _ _ _ h⟩
  · exact ⟨_, store_inBounds s size rs1 rs2 m h, .stored _ _ _ h⟩

/-- Every instruction answers a next state, and its effect is one of three shapes. -/
theorem exec_effect (i : Instr) (s : State) : ∃ t, exec i s = .next t ∧ Effect i s t := by
  have hB : ∀ m : BitVec 13, immBOk m = true → m.getLsbD 0 = false := fun m h => by simpa [immBOk] using h
  have hJ : ∀ m : BitVec 21, immJOk m = true → m.getLsbD 0 = false := fun m h => by simpa [immJOk] using h
  cases i with
  | jal rd m =>
    refine ⟨_, rfl, ?_⟩
    rw [offsetPc_eq, writeReg_pc]
    refine .reg rd _ _ fun hi hpc => ?_
    rw [add_bit0 s.pc (offsetJ m) ((sext_bit0 m (by decide) (by decide)).trans (hJ m hi))]; exact hpc
  | jalr rd rs1 m =>
    refine ⟨_, rfl, .reg rd _ _ fun _ _ => ?_⟩
    unfold State.jalrTarget; rw [BitVec.getLsbD_and]; exact Bool.and_eq_false_imp.mpr fun _ => by decide
  | beq _ _ m | bne _ _ m | blt _ _ m | bge _ _ m | bltu _ _ m | bgeu _ _ m => exact branch_effect _ s _ _ (hB m)
  | lb | lh | lw | lbu | lhu => exact load_effect _ s _ _ _ _ _
  | sb | sh | sw => exact store_effect _ s _ _ _ _
  | fence | fenceI => exact advance_effect _ s
  | lui | auipc | addi | slti | sltiu | xori | ori | andi | slli | srli | srai => exact complete_effect _ s _ _
  | add | sub | sll | slt | sltu | xor | srl | sra | or | and => exact complete_effect _ s _ _

/-! ### No instruction reads the trace flag or the trace output (R202) -/

/-- The state with another trace flag and trace output. -/
def State.withOutput (s : State) (b : Bool) (l : List TraceLine) : State := { s with trace := b, sink := l }

theorem withOutput_writeReg (s : State) (b : Bool) (l : List TraceLine) (i : RegIdx) (v : Word) :
    (s.withOutput b l).writeReg i v = (s.writeReg i v).withOutput b l := by
  unfold State.writeReg; split <;> rfl

theorem withOutput_complete (s t : State) (b : Bool) (l : List TraceLine) (rd : RegIdx) (v : Word)
    (h : s.complete rd v = .next t) : (s.withOutput b l).complete rd v = .next (t.withOutput b l) := by
  rw [complete_eq] at h ⊢; cases h; rw [withOutput_writeReg]; rfl

theorem withOutput_load (s t : State) (b : Bool) (l : List TraceLine) (size : AccessSize) (sg : Bool) (rd rs1 : RegIdx)
    (m : BitVec 12) (h : s.load size sg rd rs1 m = .next t) :
    (s.withOutput b l).load size sg rd rs1 m = .next (t.withOutput b l) := by
  rcases Nat.lt_or_ge s.mem.len ((s.loadAddr rs1 m).toNat + size.bytes) with hb | hb
  · rw [load_outOfBounds s size sg rd rs1 m hb] at h
    rw [load_outOfBounds (s.withOutput b l) size sg rd rs1 m hb]; cases h; rfl
  · rw [load_inBounds s size sg rd rs1 m hb] at h
    rw [load_inBounds (s.withOutput b l) size sg rd rs1 m hb]; exact withOutput_complete s t b l rd _ h

theorem withOutput_store (s t : State) (b : Bool) (l : List TraceLine) (size : AccessSize) (rs1 rs2 : RegIdx)
    (m : BitVec 12) (h : s.store size rs1 rs2 m = .next t) :
    (s.withOutput b l).store size rs1 rs2 m = .next (t.withOutput b l) := by
  rcases Nat.lt_or_ge s.mem.len ((s.storeAddr rs1 m).toNat + size.bytes) with hb | hb
  · rw [store_outOfBounds s size rs1 rs2 m hb] at h
    rw [store_outOfBounds (s.withOutput b l) size rs1 rs2 m hb]; cases h; rfl
  · rw [store_inBounds s size rs1 rs2 m hb] at h
    rw [store_inBounds (s.withOutput b l) size rs1 rs2 m hb]; cases h; rfl

theorem withOutput_branch (s t : State) (b : Bool) (l : List TraceLine) (taken : Bool) (m : BitVec 13)
    (h : s.branch taken m = .next t) : (s.withOutput b l).branch taken m = .next (t.withOutput b l) := by
  rw [branch_eq] at h ⊢; cases h; rfl

/-- An instruction gives the same state but for the flag and the output, whatever these are. -/
theorem exec_withOutput (i : Instr) (s t : State) (b : Bool) (l : List TraceLine) (h : exec i s = .next t) :
    exec i (s.withOutput b l) = .next (t.withOutput b l) := by
  cases i with
  | jal rd m =>
    cases h; show Host.Outcome.next (((s.withOutput b l).writeReg rd s.link).offsetPc (offsetJ m)) = _
    rw [withOutput_writeReg]; rfl
  | jalr rd rs1 m =>
    cases h; show Host.Outcome.next (((s.withOutput b l).writeReg rd s.link).writePc (s.jalrTarget rs1 m)) = _
    rw [withOutput_writeReg]; rfl
  | beq | bne | blt | bge | bltu | bgeu => exact withOutput_branch s t b l _ _ h
  | lb | lh | lw | lbu | lhu => exact withOutput_load s t b l _ _ _ _ _ h
  | sb | sh | sw => exact withOutput_store s t b l _ _ _ _ h
  | fence | fenceI => cases h; rfl
  | lui | auipc | addi | slti | sltiu | xori | ori | andi | slli | srli | srai => exact withOutput_complete s t b l _ _ h
  | add | sub | sll | slt | sltu | xor | srl | sra | or | and => exact withOutput_complete s t b l _ _ h

end Sys2Proof.Machine
end

