-- ==== Sys2Proof/Laws/Step.lean ====
section
/-! SUPPORT. What a step can do (spec R190 to R194, R224, R226). -/

namespace Sys2Proof.Machine

/-- The four ways a step goes: the latched core, a fetch fault, a word that does not decode, a decoded instruction. -/
theorem step_cases (s : State) :
    ((∃ f, s.fault = some f) ∧ step s = .next s) ∨
    (s.fault = none ∧ s.code.len < s.pcX.toNat + 4 ∧ step s = .next (s.raise (.fetchBounds s.pcX))) ∨
    (s.fault = none ∧ s.pcX.toNat + 4 ≤ s.code.len ∧ ∃ w r, w = (s.code.readLE s.pcX.toNat 4).setWidth 32 ∧
      decode w = .reject r ∧ step s = .next (s.raise (.decode s.pcX w))) ∨
    (s.fault = none ∧ s.pcX.toNat + 4 ≤ s.code.len ∧ ∃ w i, w = (s.code.readLE s.pcX.toNat 4).setWidth 32 ∧
      decode w = .instr i ∧ step s = exec i (s.emitTrace i)) := by
  unfold step engineStep
  rcases hf : s.fault with _ | f
  · rcases Nat.lt_or_ge s.code.len (s.pcX.toNat + 4) with h | h
    · rw [codeRead_none s _ h]; exact .inr (.inl ⟨rfl, h, rfl⟩)
    · rw [codeRead_some s _ h]
      rcases hd : decode ((s.code.readLE s.pcX.toNat 4).setWidth 32) with i | r
      · exact .inr (.inr (.inr ⟨rfl, h, _, i, rfl, hd, by simp only [runWord, hd, runDecoded]⟩))
      · exact .inr (.inr (.inl ⟨rfl, h, _, r, rfl, hd, by simp only [runWord, hd]⟩))
  · exact .inl ⟨⟨f, rfl⟩, rfl⟩

theorem step_latched (s : State) (f : Fault) (h : s.fault = some f) : step s = .next s := by
  unfold step engineStep; rw [h]

theorem step_fetch_fault (s : State) (h : s.fault = none) (hb : s.code.len < s.pcX.toNat + 4) :
    step s = .next (s.raise (.fetchBounds s.pcX)) := by
  unfold step engineStep; rw [h, codeRead_none s _ hb]

theorem step_fetched (s : State) (h : s.fault = none) (hb : s.pcX.toNat + 4 ≤ s.code.len) :
    step s = runWord ((s.code.readLE s.pcX.toNat 4).setWidth 32) s := by
  unfold step engineStep; rw [h, codeRead_some s _ hb]

theorem runWord_instr {w : InstrWord} {i : Instr} (h : decode w = .instr i) (s : State) :
    runWord w s = exec i (s.emitTrace i) := by unfold runWord runDecoded; rw [h]

theorem runWord_reject {w : InstrWord} {r : Reject} (h : decode w = .reject r) (s : State) :
    runWord w s = .next (s.raise (.decode s.pcX w)) := by unfold runWord; rw [h]

/-- `pcX` reads `w32` and `pc` only. -/
theorem pcX_congr {s t : State} (hw : t.w32 = s.w32) (hp : t.pc = s.pc) : t.pcX = s.pcX := by
  unfold State.pcX; rw [trunc_congr hw, hp]

theorem emitTrace_pcX (s : State) (i : Instr) : (s.emitTrace i).pcX = s.pcX := pcX_congr (by simp) (by simp)

/-! ### Counted runs (R195) -/

theorem runCount_zero (s : State) : runCount 0 s = .next s := rfl

theorem runCount_latched (n : Nat) (s : State) (f : Fault) (h : s.fault = some f) : runCount n s = .next s := by
  cases n with
  | zero => rfl
  | succ n => unfold runCount; rw [h]

theorem runCount_succ (n : Nat) (s t : State) (h : s.fault = none) (hs : step s = .next t) :
    runCount (n + 1) s = runCount n t := by
  have hs' : engineStep s = .next t := hs
  simp only [runCount, h, hs']

/-! ### Placing a word (log 14) -/

@[simp] theorem placeWord_regs (s : State) (n w : Nat) : (s.placeWord n w).regs = s.regs := rfl
@[simp] theorem placeWord_pc (s : State) (n w : Nat) : (s.placeWord n w).pc = s.pc := rfl
@[simp] theorem placeWord_w32 (s : State) (n w : Nat) : (s.placeWord n w).w32 = s.w32 := rfl
@[simp] theorem placeWord_trace (s : State) (n w : Nat) : (s.placeWord n w).trace = s.trace := rfl
@[simp] theorem placeWord_fault (s : State) (n w : Nat) : (s.placeWord n w).fault = none := rfl
@[simp] theorem placeWord_mem (s : State) (n w : Nat) : (s.placeWord n w).mem = s.mem := rfl
@[simp] theorem placeWord_sink (s : State) (n w : Nat) : (s.placeWord n w).sink = s.sink := rfl

end Sys2Proof.Machine
end

