-- ==== Sys2Proof/Laws/Invariant.lean ====
section
/-! SUPPORT. What each state operation does to the invariant, and the state after each host operation. -/

namespace Sys2Proof

open Machine

theorem narrow_iff (v : Word) : narrow v = true ↔ v.toNat < 2 ^ 32 := by simp [narrow]

theorem narrow_low32 (v : Word) : narrow (low32 v) = true := (narrow_iff _).mpr (low32_toNat_lt v)

theorem narrow_trunc {s : State} (h : s.w32 = true) (v : Word) : narrow (s.trunc v) = true := by
  rw [trunc_true h]; exact narrow_low32 v

/-- A state that agrees on registers, pc and width, and whose buffers are in canonical form, keeps the invariant. -/
theorem Inv.congr {s t : State} (hi : Inv s) (hr : t.regs = s.regs) (hp : t.pc = s.pc) (hw : t.w32 = s.w32)
    (hm : t.mem.wf = true) (hc : t.code.wf = true) : Inv t :=
  ⟨by rw [hr]; exact hi.zeroReg, fun h i => by rw [hr]; exact hi.narrowRegs (hw ▸ h) i,
    fun h => by rw [hp]; exact hi.narrowPc (hw ▸ h), hm, hc⟩

theorem Inv.raise {s : State} (hi : Inv s) (f : Fault) : Inv (s.raise f) :=
  hi.congr rfl rfl rfl hi.memWf hi.codeWf

theorem Inv.emitTrace {s : State} (hi : Inv s) (i : Instr) : Inv (s.emitTrace i) :=
  hi.congr (by simp) (by simp) (by simp) (by simpa using hi.memWf) (by simpa using hi.codeWf)

theorem Inv.writePc {s : State} (hi : Inv s) (v : Word) : Inv (s.writePc v) :=
  ⟨hi.zeroReg, hi.narrowRegs, fun h => narrow_trunc h v, hi.memWf, hi.codeWf⟩

theorem Inv.writeReg {s : State} (hi : Inv s) (rd : RegIdx) (v : Word) : Inv (s.writeReg rd v) := by
  by_cases h0 : rd = 0
  · rw [h0, writeReg_zero]; exact hi
  · have hn : rd.toNat ≠ 0 := fun h => h0 (BitVec.eq_of_toNat_eq h)
    refine ⟨?_, fun hw j => ?_, fun h => by simpa using hi.narrowPc (by simpa using h), by simpa using hi.memWf,
      by simpa using hi.codeWf⟩
    · simp only [writeReg_regs, if_neg h0]
      rw [Vector.getElem_set_ne _ _ hn]; exact hi.zeroReg
    · have hw' : s.w32 = true := by simpa using hw
      simp only [writeReg_regs, if_neg h0, Fin.getElem_fin]
      by_cases hj : rd.toNat = j.val
      · simp only [Vector.getElem_set, hj, if_true]; exact narrow_trunc hw' v
      · rw [Vector.getElem_set_ne _ _ hj]; exact hi.narrowRegs hw' j

theorem Inv.storedBytes {s : State} (hi : Inv s) (a n : Nat) (v : Word) (h : a + n ≤ s.mem.len) :
    Inv { s with mem := s.mem.writeLE a n v } :=
  hi.congr rfl rfl rfl (writeLE_wf s.mem a n v hi.memWf h) hi.codeWf

/-- The memory after reset, which lists nothing, is in canonical form. -/
theorem reset_mem_wf : State.reset.mem.wf = true := rfl

/-! ### Switching the width (R25) -/

theorem setWidthMode_narrows (s : State) (h : s.w32 = false) : s.setWidthMode true =
    { s with regs := Vector.ofFn fun i : Fin 32 => low32 s.regs[i], pc := low32 s.pc, w32 := true } := by
  unfold State.setWidthMode; rw [if_pos (by simp [h])]

theorem setWidthMode_widens (s : State) : s.setWidthMode false = { s with w32 := false } := by
  unfold State.setWidthMode; rw [if_neg (by simp)]

theorem setWidthMode_keeps (s : State) (h : s.w32 = true) : s.setWidthMode true = s := by
  unfold State.setWidthMode; rw [if_neg (by simp [h]), ← h]

theorem readCell_narrows (s : State) (h : s.w32 = false) (i : RegIdx) :
    (s.setWidthMode true).readCell i = low32 (s.readCell i) := by
  rw [setWidthMode_narrows s h]
  unfold State.readCell
  split
  · rfl
  · simp only [Vector.getElem_ofFn]; rfl

theorem Inv.setWidthMode {s : State} (hi : Inv s) (b : Bool) : Inv (s.setWidthMode b) := by
  cases b with
  | false => rw [setWidthMode_widens]; exact ⟨hi.zeroReg, fun h => (nomatch h), fun h => (nomatch h), hi.memWf, hi.codeWf⟩
  | true =>
    rcases h : s.w32 with _ | _
    · rw [setWidthMode_narrows s h]
      refine ⟨?_, fun _ i => ?_, fun _ => narrow_low32 _, hi.memWf, hi.codeWf⟩
      · rw [Vector.getElem_ofFn]; show low32 s.regs[0] = 0; rw [hi.zeroReg]; rfl
      · simp only [Fin.getElem_fin, Vector.getElem_ofFn]; exact narrow_low32 _
    · rw [setWidthMode_keeps s h]; exact hi

/-! ### The host's run (Host.Core.run) -/

theorem run_succ (M : Host.Core) (n : Nat) (s t : M.State) (h : M.step s = .next t) : M.run (n + 1) s = M.run n t := by
  simp only [Host.Core.run, h]

theorem core_run_zero (s : State) : Host.Core.run Sys2Proof.core 0 s = .next s := rfl

theorem core_run_succ (n : Nat) (s t : State) (h : step s = .next t) :
    Host.Core.run Sys2Proof.core (n + 1) s = Host.Core.run Sys2Proof.core n t := run_succ Sys2Proof.core n s t h

/-! ### Host operations -/

theorem perform_running (op : HostOp) (s : State) (h : s.fault = none) : perform op s = performRunning op s := by
  cases op <;> simp only [perform, performRunning, h]

theorem hostWriteMem_some (s : State) (a : Nat) (bytes : List Byte) (h : a + bytes.length ≤ s.mem.len) :
    s.hostWriteMem a bytes = some { s with mem := s.mem.setBytes a bytes } := if_pos (by simpa [Memory.inBounds] using h)
theorem hostWriteMem_none (s : State) (a : Nat) (bytes : List Byte) (h : s.mem.len < a + bytes.length) :
    s.hostWriteMem a bytes = none := if_neg (by simpa [Memory.inBounds] using h)

end Sys2Proof
end

