-- ==== Sys2Proof/Laws/PerInstr.lean ====
section
/-! SUPPORT. Statements made per instruction (LAWS.json). Family RowOfWord: the word of an instruction matches the row of
spec/opcode_table.json that has its mnemonic (R81: `encode` starts from the row's match). -/

namespace Sys2Proof.Laws.RowOfWord

/-- The row with the instruction's mnemonic is in the table and the instruction's word matches it. -/
def Statement (i : Instr) : Prop :=
  ∃ row ∈ opcodeTable, row.mnemonic = i.mnemonic ∧ row.matchesWord (encodeWord i) = true

theorem lui (rd : RegIdx) (immU : BitVec 32) : Statement (.lui rd immU) :=
  ⟨⟨"LUI", 0x0000007f, 0x00000037⟩, by decide, rfl, by
    simp only [OpcodeRow.matchesWord, encodeWord]
    rw [and_mask_opcode, opcodeOf_packU]; decide⟩

theorem auipc (rd : RegIdx) (immU : BitVec 32) : Statement (.auipc rd immU) :=
  ⟨⟨"AUIPC", 0x0000007f, 0x00000017⟩, by decide, rfl, by
    simp only [OpcodeRow.matchesWord, encodeWord]
    rw [and_mask_opcode, opcodeOf_packU]; decide⟩

theorem jal (rd : RegIdx) (immJ : BitVec 21) : Statement (.jal rd immJ) :=
  ⟨⟨"JAL", 0x0000007f, 0x0000006f⟩, by decide, rfl, by
    simp only [OpcodeRow.matchesWord, encodeWord]
    rw [and_mask_opcode, opcodeOf_packJ]; decide⟩

theorem jalr (rd rs1 : RegIdx) (immI : BitVec 12) : Statement (.jalr rd rs1 immI) :=
  ⟨⟨"JALR", 0x0000707f, 0x00000067⟩, by decide, rfl, by
    simp only [OpcodeRow.matchesWord, encodeWord]
    rw [and_mask_funct3, opcodeOf_packI, funct3Of_packI]; decide⟩

theorem beq (rs1 rs2 : RegIdx) (immB : BitVec 13) : Statement (.beq rs1 rs2 immB) :=
  ⟨⟨"BEQ", 0x0000707f, 0x00000063⟩, by decide, rfl, by
    simp only [OpcodeRow.matchesWord, encodeWord]
    rw [and_mask_funct3, opcodeOf_packB, funct3Of_packB]; decide⟩

theorem bne (rs1 rs2 : RegIdx) (immB : BitVec 13) : Statement (.bne rs1 rs2 immB) :=
  ⟨⟨"BNE", 0x0000707f, 0x00001063⟩, by decide, rfl, by
    simp only [OpcodeRow.matchesWord, encodeWord]
    rw [and_mask_funct3, opcodeOf_packB, funct3Of_packB]; decide⟩

theorem blt (rs1 rs2 : RegIdx) (immB : BitVec 13) : Statement (.blt rs1 rs2 immB) :=
  ⟨⟨"BLT", 0x0000707f, 0x00004063⟩, by decide, rfl, by
    simp only [OpcodeRow.matchesWord, encodeWord]
    rw [and_mask_funct3, opcodeOf_packB, funct3Of_packB]; decide⟩

theorem bge (rs1 rs2 : RegIdx) (immB : BitVec 13) : Statement (.bge rs1 rs2 immB) :=
  ⟨⟨"BGE", 0x0000707f, 0x00005063⟩, by decide, rfl, by
    simp only [OpcodeRow.matchesWord, encodeWord]
    rw [and_mask_funct3, opcodeOf_packB, funct3Of_packB]; decide⟩

theorem bltu (rs1 rs2 : RegIdx) (immB : BitVec 13) : Statement (.bltu rs1 rs2 immB) :=
  ⟨⟨"BLTU", 0x0000707f, 0x00006063⟩, by decide, rfl, by
    simp only [OpcodeRow.matchesWord, encodeWord]
    rw [and_mask_funct3, opcodeOf_packB, funct3Of_packB]; decide⟩

theorem bgeu (rs1 rs2 : RegIdx) (immB : BitVec 13) : Statement (.bgeu rs1 rs2 immB) :=
  ⟨⟨"BGEU", 0x0000707f, 0x00007063⟩, by decide, rfl, by
    simp only [OpcodeRow.matchesWord, encodeWord]
    rw [and_mask_funct3, opcodeOf_packB, funct3Of_packB]; decide⟩

theorem lb (rd rs1 : RegIdx) (immI : BitVec 12) : Statement (.lb rd rs1 immI) :=
  ⟨⟨"LB", 0x0000707f, 0x00000003⟩, by decide, rfl, by
    simp only [OpcodeRow.matchesWord, encodeWord]
    rw [and_mask_funct3, opcodeOf_packI, funct3Of_packI]; decide⟩

theorem lh (rd rs1 : RegIdx) (immI : BitVec 12) : Statement (.lh rd rs1 immI) :=
  ⟨⟨"LH", 0x0000707f, 0x00001003⟩, by decide, rfl, by
    simp only [OpcodeRow.matchesWord, encodeWord]
    rw [and_mask_funct3, opcodeOf_packI, funct3Of_packI]; decide⟩

theorem lw (rd rs1 : RegIdx) (immI : BitVec 12) : Statement (.lw rd rs1 immI) :=
  ⟨⟨"LW", 0x0000707f, 0x00002003⟩, by decide, rfl, by
    simp only [OpcodeRow.matchesWord, encodeWord]
    rw [and_mask_funct3, opcodeOf_packI, funct3Of_packI]; decide⟩

theorem lbu (rd rs1 : RegIdx) (immI : BitVec 12) : Statement (.lbu rd rs1 immI) :=
  ⟨⟨"LBU", 0x0000707f, 0x00004003⟩, by decide, rfl, by
    simp only [OpcodeRow.matchesWord, encodeWord]
    rw [and_mask_funct3, opcodeOf_packI, funct3Of_packI]; decide⟩

theorem lhu (rd rs1 : RegIdx) (immI : BitVec 12) : Statement (.lhu rd rs1 immI) :=
  ⟨⟨"LHU", 0x0000707f, 0x00005003⟩, by decide, rfl, by
    simp only [OpcodeRow.matchesWord, encodeWord]
    rw [and_mask_funct3, opcodeOf_packI, funct3Of_packI]; decide⟩

theorem sb (rs1 rs2 : RegIdx) (immS : BitVec 12) : Statement (.sb rs1 rs2 immS) :=
  ⟨⟨"SB", 0x0000707f, 0x00000023⟩, by decide, rfl, by
    simp only [OpcodeRow.matchesWord, encodeWord]
    rw [and_mask_funct3, opcodeOf_packS, funct3Of_packS]; decide⟩

theorem sh (rs1 rs2 : RegIdx) (immS : BitVec 12) : Statement (.sh rs1 rs2 immS) :=
  ⟨⟨"SH", 0x0000707f, 0x00001023⟩, by decide, rfl, by
    simp only [OpcodeRow.matchesWord, encodeWord]
    rw [and_mask_funct3, opcodeOf_packS, funct3Of_packS]; decide⟩

theorem sw (rs1 rs2 : RegIdx) (immS : BitVec 12) : Statement (.sw rs1 rs2 immS) :=
  ⟨⟨"SW", 0x0000707f, 0x00002023⟩, by decide, rfl, by
    simp only [OpcodeRow.matchesWord, encodeWord]
    rw [and_mask_funct3, opcodeOf_packS, funct3Of_packS]; decide⟩

theorem addi (rd rs1 : RegIdx) (immI : BitVec 12) : Statement (.addi rd rs1 immI) :=
  ⟨⟨"ADDI", 0x0000707f, 0x00000013⟩, by decide, rfl, by
    simp only [OpcodeRow.matchesWord, encodeWord]
    rw [and_mask_funct3, opcodeOf_packI, funct3Of_packI]; decide⟩

theorem slti (rd rs1 : RegIdx) (immI : BitVec 12) : Statement (.slti rd rs1 immI) :=
  ⟨⟨"SLTI", 0x0000707f, 0x00002013⟩, by decide, rfl, by
    simp only [OpcodeRow.matchesWord, encodeWord]
    rw [and_mask_funct3, opcodeOf_packI, funct3Of_packI]; decide⟩

theorem sltiu (rd rs1 : RegIdx) (immI : BitVec 12) : Statement (.sltiu rd rs1 immI) :=
  ⟨⟨"SLTIU", 0x0000707f, 0x00003013⟩, by decide, rfl, by
    simp only [OpcodeRow.matchesWord, encodeWord]
    rw [and_mask_funct3, opcodeOf_packI, funct3Of_packI]; decide⟩

theorem xori (rd rs1 : RegIdx) (immI : BitVec 12) : Statement (.xori rd rs1 immI) :=
  ⟨⟨"XORI", 0x0000707f, 0x00004013⟩, by decide, rfl, by
    simp only [OpcodeRow.matchesWord, encodeWord]
    rw [and_mask_funct3, opcodeOf_packI, funct3Of_packI]; decide⟩

theorem ori (rd rs1 : RegIdx) (immI : BitVec 12) : Statement (.ori rd rs1 immI) :=
  ⟨⟨"ORI", 0x0000707f, 0x00006013⟩, by decide, rfl, by
    simp only [OpcodeRow.matchesWord, encodeWord]
    rw [and_mask_funct3, opcodeOf_packI, funct3Of_packI]; decide⟩

theorem andi (rd rs1 : RegIdx) (immI : BitVec 12) : Statement (.andi rd rs1 immI) :=
  ⟨⟨"ANDI", 0x0000707f, 0x00007013⟩, by decide, rfl, by
    simp only [OpcodeRow.matchesWord, encodeWord]
    rw [and_mask_funct3, opcodeOf_packI, funct3Of_packI]; decide⟩

theorem slli (rd rs1 : RegIdx) (shamt : BitVec 6) : Statement (.slli rd rs1 shamt) :=
  ⟨⟨"SLLI", 0xfc00707f, 0x00001013⟩, by decide, rfl, by
    simp only [OpcodeRow.matchesWord, encodeWord]
    rw [and_mask_funct6, opcodeOf_packShift, funct3Of_packShift, funct6Of_packShift]; decide⟩

theorem srli (rd rs1 : RegIdx) (shamt : BitVec 6) : Statement (.srli rd rs1 shamt) :=
  ⟨⟨"SRLI", 0xfc00707f, 0x00005013⟩, by decide, rfl, by
    simp only [OpcodeRow.matchesWord, encodeWord]
    rw [and_mask_funct6, opcodeOf_packShift, funct3Of_packShift, funct6Of_packShift]; decide⟩

theorem srai (rd rs1 : RegIdx) (shamt : BitVec 6) : Statement (.srai rd rs1 shamt) :=
  ⟨⟨"SRAI", 0xfc00707f, 0x40005013⟩, by decide, rfl, by
    simp only [OpcodeRow.matchesWord, encodeWord]
    rw [and_mask_funct6, opcodeOf_packShift, funct3Of_packShift, funct6Of_packShift]; decide⟩

theorem add (rd rs1 rs2 : RegIdx) : Statement (.add rd rs1 rs2) :=
  ⟨⟨"ADD", 0xfe00707f, 0x00000033⟩, by decide, rfl, by
    simp only [OpcodeRow.matchesWord, encodeWord]
    rw [and_mask_funct7, opcodeOf_packR, funct3Of_packR, funct7Of_packR]; decide⟩

theorem sub (rd rs1 rs2 : RegIdx) : Statement (.sub rd rs1 rs2) :=
  ⟨⟨"SUB", 0xfe00707f, 0x40000033⟩, by decide, rfl, by
    simp only [OpcodeRow.matchesWord, encodeWord]
    rw [and_mask_funct7, opcodeOf_packR, funct3Of_packR, funct7Of_packR]; decide⟩

theorem sll (rd rs1 rs2 : RegIdx) : Statement (.sll rd rs1 rs2) :=
  ⟨⟨"SLL", 0xfe00707f, 0x00001033⟩, by decide, rfl, by
    simp only [OpcodeRow.matchesWord, encodeWord]
    rw [and_mask_funct7, opcodeOf_packR, funct3Of_packR, funct7Of_packR]; decide⟩

theorem slt (rd rs1 rs2 : RegIdx) : Statement (.slt rd rs1 rs2) :=
  ⟨⟨"SLT", 0xfe00707f, 0x00002033⟩, by decide, rfl, by
    simp only [OpcodeRow.matchesWord, encodeWord]
    rw [and_mask_funct7, opcodeOf_packR, funct3Of_packR, funct7Of_packR]; decide⟩

theorem sltu (rd rs1 rs2 : RegIdx) : Statement (.sltu rd rs1 rs2) :=
  ⟨⟨"SLTU", 0xfe00707f, 0x00003033⟩, by decide, rfl, by
    simp only [OpcodeRow.matchesWord, encodeWord]
    rw [and_mask_funct7, opcodeOf_packR, funct3Of_packR, funct7Of_packR]; decide⟩

theorem xor (rd rs1 rs2 : RegIdx) : Statement (.xor rd rs1 rs2) :=
  ⟨⟨"XOR", 0xfe00707f, 0x00004033⟩, by decide, rfl, by
    simp only [OpcodeRow.matchesWord, encodeWord]
    rw [and_mask_funct7, opcodeOf_packR, funct3Of_packR, funct7Of_packR]; decide⟩

theorem srl (rd rs1 rs2 : RegIdx) : Statement (.srl rd rs1 rs2) :=
  ⟨⟨"SRL", 0xfe00707f, 0x00005033⟩, by decide, rfl, by
    simp only [OpcodeRow.matchesWord, encodeWord]
    rw [and_mask_funct7, opcodeOf_packR, funct3Of_packR, funct7Of_packR]; decide⟩

theorem sra (rd rs1 rs2 : RegIdx) : Statement (.sra rd rs1 rs2) :=
  ⟨⟨"SRA", 0xfe00707f, 0x40005033⟩, by decide, rfl, by
    simp only [OpcodeRow.matchesWord, encodeWord]
    rw [and_mask_funct7, opcodeOf_packR, funct3Of_packR, funct7Of_packR]; decide⟩

theorem or (rd rs1 rs2 : RegIdx) : Statement (.or rd rs1 rs2) :=
  ⟨⟨"OR", 0xfe00707f, 0x00006033⟩, by decide, rfl, by
    simp only [OpcodeRow.matchesWord, encodeWord]
    rw [and_mask_funct7, opcodeOf_packR, funct3Of_packR, funct7Of_packR]; decide⟩

theorem and (rd rs1 rs2 : RegIdx) : Statement (.and rd rs1 rs2) :=
  ⟨⟨"AND", 0xfe00707f, 0x00007033⟩, by decide, rfl, by
    simp only [OpcodeRow.matchesWord, encodeWord]
    rw [and_mask_funct7, opcodeOf_packR, funct3Of_packR, funct7Of_packR]; decide⟩

theorem fence (rd rs1 : RegIdx) (immI : BitVec 12) : Statement (.fence rd rs1 immI) :=
  ⟨⟨"FENCE", 0x0000707f, 0x0000000f⟩, by decide, rfl, by
    simp only [OpcodeRow.matchesWord, encodeWord]
    rw [and_mask_funct3, opcodeOf_packI, funct3Of_packI]; decide⟩

theorem fenceI (rd rs1 : RegIdx) (immI : BitVec 12) : Statement (.fenceI rd rs1 immI) :=
  ⟨⟨"FENCE.I", 0x0000707f, 0x0000100f⟩, by decide, rfl, by
    simp only [OpcodeRow.matchesWord, encodeWord]
    rw [and_mask_funct3, opcodeOf_packI, funct3Of_packI]; decide⟩

end Sys2Proof.Laws.RowOfWord
end

