-- ==== Sys2Proof/Tests/Slice0.lean ====
section
/-! SUPPORT. Tests: ill-formed terms that WellFormed refuses, the words of the spec's table V-ENC decoded, single steps whose
results are those of the spec's tables V-II, V-IR, V-CT, V-LS, V-FN, V-W and V-EN (spec/95_test_vectors.md), and a witness for
the hypotheses of every statement. -/

namespace Sys2Proof.Tests

open Machine Claims

/-! ### WellFormed -/

theorem test_immB_odd_refused : (Instr.beq 1 2 1).wellFormed = false ∧ encode (.beq 1 2 1) = none := by decide
theorem test_immJ_odd_refused : (Instr.jal 1 3).wellFormed = false ∧ encode (.jal 1 3) = none := by decide
theorem test_immU_low_bits_refused : (Instr.lui 1 0x12345001).wellFormed = false ∧ (Instr.auipc 1 0x800).wellFormed = false ∧
    encode (.auipc 1 0x800) = none := by decide
theorem test_wellFormed_accepts : (Instr.bgeu 1 2 0x1FFE).wellFormed = true ∧ (Instr.jal 1 0x1FFFFE).wellFormed = true ∧
    (Instr.lui 1 0xFFFFF000).wellFormed = true ∧ (Instr.slli 1 2 63).wellFormed = true := by decide

/-! ### Decode and encode (table V-ENC): one theorem per constructor -/

/-- The word decodes to the instruction and the instruction encodes to the word. -/
def codes (w : InstrWord) (i : Instr) : Bool := decide (decode w = .instr i) && decide (encode i = some w)

theorem test_decode_lui : codes 0x123450B7 (.lui 1 0x12345000) = true ∧
    codes 0xFFFFFFB7 (.lui 31 0xFFFFF000) = true := by decide
theorem test_decode_auipc : codes 0x80000297 (.auipc 5 0x80000000) = true := by decide
theorem test_decode_jal : codes 0x010000EF (.jal 1 0x10) = true ∧
    codes 0xFFFFF06F (.jal 0 0x1FFFFE) = true ∧
    codes 0x7FFFFFEF (.jal 31 0xFFFFE) = true ∧
    codes 0x800000EF (.jal 1 0x100000) = true ∧
    codes 0x0010006F (.jal 0 0x800) = true ∧
    codes 0x000FF06F (.jal 0 0xFF000) = true := by decide
theorem test_decode_jalr : codes 0x004100E7 (.jalr 1 2 0x4) = true ∧
    codes 0x00008067 (.jalr 0 1 0x0) = true ∧
    codes 0x800F8FE7 (.jalr 31 31 0x800) = true := by decide
theorem test_decode_beq : codes 0xFE208CE3 (.beq 1 2 0x1FF8) = true ∧
    codes 0x80000063 (.beq 0 0 0x1000) = true ∧
    codes 0x000000E3 (.beq 0 0 0x800) = true ∧
    codes 0x00000163 (.beq 0 0 0x2) = true ∧
    codes 0xFE000FE3 (.beq 0 0 0x1FFE) = true := by decide
theorem test_decode_bne : codes 0xFE209CE3 (.bne 1 2 0x1FF8) = true ∧
    codes 0x7FFF9FE3 (.bne 31 31 0xFFE) = true := by decide
theorem test_decode_blt : codes 0xFE20CCE3 (.blt 1 2 0x1FF8) = true := by decide
theorem test_decode_bge : codes 0xFE20DCE3 (.bge 1 2 0x1FF8) = true := by decide
theorem test_decode_bltu : codes 0xFE20ECE3 (.bltu 1 2 0x1FF8) = true := by decide
theorem test_decode_bgeu : codes 0xFE20FCE3 (.bgeu 1 2 0x1FF8) = true := by decide
theorem test_decode_lb : codes 0x00400283 (.lb 5 0 0x4) = true := by decide
theorem test_decode_lh : codes 0x00341283 (.lh 5 8 0x3) = true := by decide
theorem test_decode_lw : codes 0xFFC42283 (.lw 5 8 0xFFC) = true := by decide
theorem test_decode_lbu : codes 0x7FFFC283 (.lbu 5 31 0x7FF) = true := by decide
theorem test_decode_lhu : codes 0x8000D283 (.lhu 5 1 0x800) = true := by decide
theorem test_decode_sb : codes 0xFE208FA3 (.sb 1 2 0xFFF) = true ∧
    codes 0x00100FA3 (.sb 0 1 0x1F) = true ∧
    codes 0x02100023 (.sb 0 1 0x20) = true := by decide
theorem test_decode_sh : codes 0x002090A3 (.sh 1 2 0x1) = true := by decide
theorem test_decode_sw : codes 0x0020A423 (.sw 1 2 0x8) = true ∧
    codes 0x7FFFAFA3 (.sw 31 31 0x7FF) = true ∧
    codes 0x80002023 (.sw 0 0 0x800) = true := by decide
theorem test_decode_addi : codes 0x02A10093 (.addi 1 2 0x2A) = true ∧
    codes 0xFD610093 (.addi 1 2 0xFD6) = true ∧
    codes 0x00000013 (.addi 0 0 0x0) = true := by decide
theorem test_decode_slti : codes 0xFFF12093 (.slti 1 2 0xFFF) = true := by decide
theorem test_decode_sltiu : codes 0x00113093 (.sltiu 1 2 0x1) = true := by decide
theorem test_decode_xori : codes 0xFFF14093 (.xori 1 2 0xFFF) = true := by decide
theorem test_decode_ori : codes 0x70016093 (.ori 1 2 0x700) = true := by decide
theorem test_decode_andi : codes 0xFF017093 (.andi 1 2 0xFF0) = true := by decide
theorem test_decode_slli : codes 0x00411093 (.slli 1 2 4) = true ∧
    codes 0x02111093 (.slli 1 2 33) = true := by decide
theorem test_decode_srli : codes 0x00415093 (.srli 1 2 4) = true ∧
    codes 0x03FFDF93 (.srli 31 31 63) = true := by decide
theorem test_decode_srai : codes 0x40415093 (.srai 1 2 4) = true ∧
    codes 0x43F15093 (.srai 1 2 63) = true := by decide
theorem test_decode_add : codes 0x002081B3 (.add 3 1 2) = true := by decide
theorem test_decode_sub : codes 0x402081B3 (.sub 3 1 2) = true := by decide
theorem test_decode_sll : codes 0x002091B3 (.sll 3 1 2) = true := by decide
theorem test_decode_slt : codes 0x0020A1B3 (.slt 3 1 2) = true := by decide
theorem test_decode_sltu : codes 0x0020B1B3 (.sltu 3 1 2) = true := by decide
theorem test_decode_xor : codes 0x0020C1B3 (.xor 3 1 2) = true := by decide
theorem test_decode_srl : codes 0x0020D1B3 (.srl 3 1 2) = true := by decide
theorem test_decode_sra : codes 0x4020D1B3 (.sra 3 1 2) = true := by decide
theorem test_decode_or : codes 0x0020E1B3 (.or 3 1 2) = true := by decide
theorem test_decode_and : codes 0x0020F1B3 (.and 3 1 2) = true ∧
    codes 0x01FFFFB3 (.and 31 31 31) = true := by decide
theorem test_decode_fence : codes 0x0FF0000F (.fence 0 0 0xFF) = true ∧
    codes 0x8330000F (.fence 0 0 0x833) = true ∧
    codes 0x0003028F (.fence 5 6 0x0) = true := by decide
theorem test_decode_fenceI : codes 0x0000100F (.fenceI 0 0 0x0) = true ∧
    codes 0xFFFF9F8F (.fenceI 31 31 0xFFF) = true := by decide

/-! Immediate scatter, one bit at a time (table V-ENC) -/

theorem test_scatter_B : codes 0x00000163 (.beq 0 0 0x2) = true ∧
    codes 0x00000863 (.beq 0 0 0x10) = true ∧
    codes 0x02000063 (.beq 0 0 0x20) = true ∧
    codes 0x40000063 (.beq 0 0 0x400) = true ∧
    codes 0x000000E3 (.beq 0 0 0x800) = true ∧
    codes 0x80000063 (.beq 0 0 0x1000) = true := by decide
theorem test_scatter_J : codes 0x0020006F (.jal 0 0x2) = true ∧
    codes 0x4000006F (.jal 0 0x400) = true ∧
    codes 0x0010006F (.jal 0 0x800) = true ∧
    codes 0x0000106F (.jal 0 0x1000) = true ∧
    codes 0x0008006F (.jal 0 0x80000) = true ∧
    codes 0x8000006F (.jal 0 0x100000) = true := by decide
theorem test_scatter_S : codes 0x000000A3 (.sb 0 0 0x1) = true ∧
    codes 0x00000823 (.sb 0 0 0x10) = true ∧
    codes 0x02000023 (.sb 0 0 0x20) = true ∧
    codes 0x80000023 (.sb 0 0 0x800) = true := by decide
theorem test_scatter_U : codes 0x00001037 (.lui 0 0x1000) = true ∧
    codes 0x80000037 (.lui 0 0x80000000) = true := by decide

/-! ### Words that do not decode (table V-ND) -/

/-- No decode. -/
def rejected (w : InstrWord) : Bool := (decode w).toOption.isNone

theorem test_no_decode_1 : rejected 0x00000000 = true ∧
    rejected 0xFFFFFFFF = true ∧
    rejected 0x00000073 = true ∧
    rejected 0x00100073 = true ∧
    rejected 0x30200073 = true ∧
    rejected 0x10500073 = true ∧
    rejected 0xC0002573 = true ∧
    rejected 0x02208033 = true ∧
    rejected 0x40001033 = true ∧
    rejected 0x80000033 = true ∧
    rejected 0x02000033 = true := by decide
theorem test_no_decode_2 : rejected 0x40002033 = true ∧
    rejected 0x00003003 = true ∧
    rejected 0x00006003 = true ∧
    rejected 0x00007003 = true ∧
    rejected 0x00003023 = true ∧
    rejected 0x00004023 = true ∧
    rejected 0x0000001B = true ∧
    rejected 0x0000003B = true ∧
    rejected 0x00001067 = true ∧
    rejected 0x00002063 = true ∧
    rejected 0x00003063 = true := by decide
theorem test_no_decode_3 : rejected 0x0000200F = true ∧
    rejected 0x40001013 = true ∧
    rejected 0x80005013 = true ∧
    rejected 0x04001013 = true ∧
    rejected 0x44005013 = true ∧
    rejected 0x0000002F = true ∧
    rejected 0x00000053 = true ∧
    rejected 0x0000000B = true ∧
    rejected 0x00000001 = true ∧
    rejected 0x00000012 = true := by decide
theorem test_decode_by_contrast : decode 0x02001013 = .instr (.slli 0 0 32) ∧ decode 0x43F05013 = .instr (.srai 0 0 63) := by decide
theorem test_decode_bytes : decodeBytes [0xE3, 0x9C, 0x20, 0xFE] = .instr (.bne 1 2 0x1FF8) ∧
    decodeBytes [0xE3, 0x9C, 0x20] = .reject .truncated ∧ decodeTableWord 32 0x0020A423 = some (.sw 1 2 8) ∧
    decodeTableWord 32 0x73 = none := by decide

/-! ### One step (tables V-II, V-IR, V-CT, V-LS, V-FN): registers, memory and mode as the line gives them, pc = 0x100 -/

/-- The next state of an answer. -/
def nextOf {σ φ ρ : Type} : Host.Outcome σ φ ρ → Option σ
  | .next s => some s
  | _ => none

/-- `MZ` of the spec: 16 bytes of zero. -/
def mz : Memory := { len := 16, cells := [] }
/-- `MS` of the spec: bytes 80 FF 7F 80 at 4 .. 7. -/
def ms : Memory := { len := 16, cells := [(4, 0x80), (5, 0xFF), (6, 0x7F), (7, 0x80)] }
/-- `M32` of the spec: byte `i` is `i`. -/
def m32 : Memory := Memory.ofBytes ((List.range 32).map fun i => BitVec.ofNat 8 i)

/-- The core in a mode, at pc 0x100, with some registers set by the host. -/
def start (w32 : Bool) (regs : List (RegIdx × Word)) (mem : Memory) : State :=
  regs.foldl (fun s r => s.writeReg r.1 r.2) ((State.launch w32 mem).writePc 0x100)

/-- One step on a word: register `r`, the pc and the latch after it. -/
def stepReg (w : Nat) (r : RegIdx) (s : State) : Option (Word × Word × Option Fault) :=
  (nextOf (step (s.withFetchWord 32 w))).map fun t => (t.readCell r, t.pc, t.fault)

/-- One step on a word: the memory, the pc and the latch after it. -/
def stepMem (w : Nat) (s : State) : Option (Memory × Word × Option Fault) :=
  (nextOf (step (s.withFetchWord 32 w))).map fun t => (t.mem, t.pc, t.fault)

/-- R111: lui x1, 0x80000. -/
theorem test_lui : stepReg 0x800000B7 1 (start true [] mz) = some (0x80000000, 0x104, none) ∧
    stepReg 0x800000B7 1 (start false [] mz) = some (0xFFFFFFFF80000000, 0x104, none) := by decide
/-- R112: auipc x1, 0xFFFFF. -/
theorem test_auipc : stepReg 0xFFFFF097 1 (start true [] mz) = some (0xFFFFF100, 0x104, none) ∧
    stepReg 0xFFFFF097 1 (start false [] mz) = some (0xFFFFFFFFFFFFF100, 0x104, none) := by decide
/-- II-2, II-4. -/
theorem test_addi : stepReg 0xFD610093 1 (start true [(2, 21)] mz) = some (0xFFFFFFEB, 0x104, none) ∧
    stepReg 0xFD610093 1 (start false [(2, 21)] mz) = some (0xFFFFFFFFFFFFFFEB, 0x104, none) ∧
    stepReg 0x00108093 1 (start true [(1, 0xFFFFFFFF)] mz) = some (0, 0x104, none) ∧
    stepReg 0x00108093 1 (start false [(1, 0xFFFFFFFF)] mz) = some (0x100000000, 0x104, none) := by decide
/-- II-8. -/
theorem test_addi_hint : stepReg 0x02A10013 0 (start true [(2, 21)] mz) = some (0, 0x104, none) ∧
    stepReg 0x02A10013 0 (start false [(2, 21)] mz) = some (0, 0x104, none) := by decide
/-- II-10. -/
theorem test_slti : stepReg 0xFFF12093 1 (start true [(2, 0xFFFFFFFE)] mz) = some (1, 0x104, none) ∧
    stepReg 0xFFF12093 1 (start false [(2, 0xFFFFFFFE)] mz) = some (0, 0x104, none) := by decide
/-- II-15, II-16. -/
theorem test_sltiu : stepReg 0xFFF13093 1 (start true [(2, 0xFFFFFFFF)] mz) = some (0, 0x104, none) ∧
    stepReg 0xFFF13093 1 (start false [(2, 0xFFFFFFFF)] mz) = some (1, 0x104, none) ∧
    stepReg 0x00113093 1 (start true [(2, 0)] mz) = some (1, 0x104, none) := by decide
/-- II-18. -/
theorem test_xori : stepReg 0xFFF14093 1 (start true [(2, 0x0F0F)] mz) = some (0xFFFFF0F0, 0x104, none) ∧
    stepReg 0xFFF14093 1 (start false [(2, 0x0F0F)] mz) = some (0xFFFFFFFFFFFFF0F0, 0x104, none) := by decide
/-- R106: ori x1, x2, -2048. -/
theorem test_ori : stepReg 0x80016093 1 (start true [(2, 0x0F)] mz) = some (0xFFFFF80F, 0x104, none) ∧
    stepReg 0x80016093 1 (start false [(2, 0x0F)] mz) = some (0xFFFFFFFFFFFFF80F, 0x104, none) := by decide
/-- R107: andi x1, x2, -16 and 0xFF. -/
theorem test_andi : stepReg 0xFF017093 1 (start true [(2, 0x12345678)] mz) = some (0x12345670, 0x104, none) ∧
    stepReg 0x0FF17093 1 (start false [(2, 0x12345678)] mz) = some (0x78, 0x104, none) := by decide
/-- R108. -/
theorem test_slli : stepReg 0x00411093 1 (start true [(2, 0x80000001)] mz) = some (0x10, 0x104, none) ∧
    stepReg 0x00411093 1 (start false [(2, 0x80000001)] mz) = some (0x800000010, 0x104, none) ∧
    stepReg 0x02111093 1 (start true [(2, 3)] mz) = some (6, 0x104, none) ∧
    stepReg 0x02111093 1 (start false [(2, 3)] mz) = some (0x600000000, 0x104, none) := by decide
/-- R109: shamt 36. -/
theorem test_srli : stepReg 0x02415093 1 (start true [(2, 0x80000000)] mz) = some (0x08000000, 0x104, none) ∧
    stepReg 0x02415093 1 (start false [(2, 0x80000000)] mz) = some (0, 0x104, none) := by decide
/-- R110. -/
theorem test_srai : stepReg 0x40415093 1 (start true [(2, 0x80000000)] mz) = some (0xF8000000, 0x104, none) ∧
    stepReg 0x40415093 1 (start false [(2, 0x80000000)] mz) = some (0x08000000, 0x104, none) ∧
    stepReg 0x43F15093 1 (start true [(2, 0x80000000)] mz) = some (0xFFFFFFFF, 0x104, none) ∧
    stepReg 0x43F15093 1 (start false [(2, 0x80000000)] mz) = some (0, 0x104, none) := by decide
/-- IR-3, R122. -/
theorem test_add : stepReg 0x001080B3 1 (start true [(1, 0x80000000)] mz) = some (0, 0x104, none) ∧
    stepReg 0x001080B3 1 (start false [(1, 0x80000000)] mz) = some (0x100000000, 0x104, none) := by decide
/-- IR-6, IR-8. -/
theorem test_sub : stepReg 0x402081B3 3 (start true [(2, 1)] mz) = some (0xFFFFFFFF, 0x104, none) ∧
    stepReg 0x402081B3 3 (start false [(2, 1)] mz) = some (0xFFFFFFFFFFFFFFFF, 0x104, none) ∧
    stepReg 0x401001B3 3 (start true [(1, 0x80000000)] mz) = some (0x80000000, 0x104, none) ∧
    stepReg 0x401001B3 3 (start false [(1, 0x80000000)] mz) = some (0xFFFFFFFF80000000, 0x104, none) := by decide
/-- IR-11, IR-13. -/
theorem test_sll : stepReg 0x002091B3 3 (start true [(1, 1), (2, 32)] mz) = some (1, 0x104, none) ∧
    stepReg 0x002091B3 3 (start false [(1, 1), (2, 32)] mz) = some (0x100000000, 0x104, none) ∧
    stepReg 0x002091B3 3 (start false [(1, 1), (2, 0xFFFFFFFF)] mz) = some (0x8000000000000000, 0x104, none) := by decide
/-- IR-14, IR-17. -/
theorem test_slt : stepReg 0x0020A1B3 3 (start true [(1, 0xFFFFFFFF), (2, 1)] mz) = some (1, 0x104, none) ∧
    stepReg 0x0020A1B3 3 (start false [(1, 0xFFFFFFFF), (2, 1)] mz) = some (0, 0x104, none) ∧
    stepReg 0x0020A1B3 3 (start false [(1, 0xFFFFFFFFFFFFFFFF)] mz) = some (1, 0x104, none) := by decide
/-- IR-18, IR-19. -/
theorem test_sltu : stepReg 0x0020B1B3 3 (start true [(1, 0xFFFFFFFF), (2, 1)] mz) = some (0, 0x104, none) ∧
    stepReg 0x0020B1B3 3 (start false [(1, 1), (2, 0xFFFFFFFF)] mz) = some (1, 0x104, none) := by decide
/-- IR-22. -/
theorem test_xor : stepReg 0x0020C1B3 3 (start true [(1, 0xFF00FF00), (2, 0x0FF00FF0)] mz) = some (0xF0F0F0F0, 0x104, none) := by decide
/-- IR-25. -/
theorem test_srl : stepReg 0x0020D1B3 3 (start true [(1, 0x80000000), (2, 33)] mz) = some (0x40000000, 0x104, none) ∧
    stepReg 0x0020D1B3 3 (start false [(1, 0x80000000), (2, 33)] mz) = some (0, 0x104, none) := by decide
/-- IR-27, IR-29. -/
theorem test_sra : stepReg 0x4020D1B3 3 (start true [(1, 0x80000000), (2, 31)] mz) = some (0xFFFFFFFF, 0x104, none) ∧
    stepReg 0x4020D1B3 3 (start false [(1, 0x80000000), (2, 31)] mz) = some (1, 0x104, none) ∧
    stepReg 0x4020D1B3 3 (start false [(1, 0x8000000000000000), (2, 63)] mz) = some (0xFFFFFFFFFFFFFFFF, 0x104, none) := by decide
/-- IR-31. -/
theorem test_or : stepReg 0x0020E1B3 3 (start true [(1, 0xFF00FF00), (2, 0x0FF00FF0)] mz) = some (0xFFF0FFF0, 0x104, none) := by decide
/-- IR-32. -/
theorem test_and : stepReg 0x0020F1B3 3 (start false [(1, 0xFF00FF00), (2, 0x0FF00FF0)] mz) = some (0x0F000F00, 0x104, none) := by decide
/-- CT-2, CT-5. -/
theorem test_jal : stepReg 0xFF9FF0EF 1 (start true [] mz) = some (0x104, 0xF8, none) ∧
    stepReg 0xEFDFF0EF 1 (start true [] mz) = some (0x104, 0xFFFFFFFC, none) ∧
    stepReg 0xEFDFF0EF 1 (start false [] mz) = some (0x104, 0xFFFFFFFFFFFFFFFC, none) := by decide
/-- CT-27, CT-28, CT-31. -/
theorem test_jalr : stepReg 0x004100E7 1 (start true [(2, 0x201)] mz) = some (0x104, 0x204, none) ∧
    stepReg 0xFFC080E7 1 (start false [(1, 0x208)] mz) = some (0x104, 0x204, none) ∧
    stepReg 0xFFF002E7 5 (start true [] mz) = some (0x104, 0xFFFFFFFE, none) := by decide
/-- CT-11, CT-12, CT-15. -/
theorem test_beq : stepReg 0xFE208CE3 0 (start true [(1, 5), (2, 5)] mz) = some (0, 0xF8, none) ∧
    stepReg 0xFE208CE3 0 (start false [(1, 0xFFFFFFFF), (2, 1)] mz) = some (0, 0x104, none) ∧
    stepReg 0x80000063 0 (start true [] mz) = some (0, 0xFFFFF100, none) := by decide
/-- CT-7, CT-8, CT-10. -/
theorem test_bne : stepReg 0xFE209CE3 0 (start true [(1, 5), (2, 5)] mz) = some (0, 0x104, none) ∧
    stepReg 0xFE209CE3 0 (start false [(1, 5), (2, 6)] mz) = some (0, 0xF8, none) ∧
    stepReg 0x7E209FE3 0 (start true [(1, 1), (2, 2)] mz) = some (0, 0x10FE, none) := by decide
/-- CT-16, CT-17. -/
theorem test_blt : stepReg 0xFE20CCE3 0 (start true [(1, 0xFFFFFFFF), (2, 1)] mz) = some (0, 0xF8, none) ∧
    stepReg 0xFE20CCE3 0 (start false [(1, 0xFFFFFFFF), (2, 1)] mz) = some (0, 0x104, none) ∧
    stepReg 0xFE20CCE3 0 (start true [(1, 5), (2, 5)] mz) = some (0, 0x104, none) := by decide
/-- CT-19, CT-20. -/
theorem test_bge : stepReg 0xFE20DCE3 0 (start true [(1, 0xFFFFFFFF), (2, 1)] mz) = some (0, 0x104, none) ∧
    stepReg 0xFE20DCE3 0 (start false [(1, 0xFFFFFFFF), (2, 1)] mz) = some (0, 0xF8, none) ∧
    stepReg 0xFE20DCE3 0 (start true [(1, 5), (2, 5)] mz) = some (0, 0xF8, none) := by decide
/-- CT-21, CT-22. -/
theorem test_bltu : stepReg 0xFE20ECE3 0 (start true [(1, 0xFFFFFFFF), (2, 1)] mz) = some (0, 0x104, none) ∧
    stepReg 0xFE20ECE3 0 (start false [(1, 1), (2, 0xFFFFFFFF)] mz) = some (0, 0xF8, none) := by decide
/-- CT-24, CT-26. -/
theorem test_bgeu : stepReg 0xFE20FCE3 0 (start true [(1, 0xFFFFFFFF), (2, 1)] mz) = some (0, 0xF8, none) ∧
    stepReg 0xFE207CE3 0 (start false [(2, 1)] mz) = some (0, 0x104, none) := by decide
/-- LS-1, LS-13. -/
theorem test_lb : stepReg 0x00400283 5 (start true [] ms) = some (0xFFFFFF80, 0x104, none) ∧
    stepReg 0x00400283 5 (start false [] ms) = some (0xFFFFFFFFFFFFFF80, 0x104, none) ∧
    stepReg 0x01F00283 5 (start false [] m32) = some (0x1F, 0x104, none) := by decide
/-- LS-3, LS-4, LS-6. -/
theorem test_lh : stepReg 0x00341283 5 (start true [(8, 8)] m32) = some (0x0C0B, 0x104, none) ∧
    stepReg 0x00401283 5 (start false [] ms) = some (0xFFFFFFFFFFFFFF80, 0x104, none) ∧
    stepReg 0x00501283 5 (start true [] ms) = some (0x7FFF, 0x104, none) := by decide
/-- LS-8, LS-9, LS-11, LS-19a. -/
theorem test_lw : stepReg 0xFFC42283 5 (start false [(8, 8)] ms) = some (0xFFFFFFFF807FFF80, 0x104, none) ∧
    stepReg 0x00502283 5 (start true [] ms) = some (0x807FFF, 0x104, none) ∧
    stepReg 0x01C02283 5 (start true [] m32) = some (0x1F1E1D1C, 0x104, none) ∧
    stepReg 0x00142283 5 (start true [(8, 0xFFFFFFFF)] m32) = some (0x03020100, 0x104, none) := by decide
/-- LS-2, LS-20a. -/
theorem test_lbu : stepReg 0x00404283 5 (start false [] ms) = some (0x80, 0x104, none) ∧
    stepReg 0x7FF44283 5 (start true [(8, 0xFFFFF810)] m32) = some (0x0F, 0x104, none) := by decide
/-- LS-5. -/
theorem test_lhu : stepReg 0x00405283 5 (start false [] ms) = some (0xFF80, 0x104, none) := by decide
/-- LS-12, LS-14, LS-15, LS-16, LS-17, LS-19b. -/
theorem test_load_bounds : stepReg 0x01D02283 5 (start true [(5, 0x77)] m32) = some (0x77, 0x100, some (.memBounds 0x100 0x1D .word .read)) ∧
    stepReg 0x02000283 5 (start false [(5, 0x77)] m32) = some (0x77, 0x100, some (.memBounds 0x100 0x20 .byte .read)) ∧
    stepReg 0x01F01283 5 (start true [(5, 0x77)] m32) = some (0x77, 0x100, some (.memBounds 0x100 0x1F .half .read)) ∧
    stepReg 0xFFF02283 5 (start true [(5, 0x77)] m32) = some (0x77, 0x100, some (.memBounds 0x100 0xFFFFFFFF .word .read)) ∧
    stepReg 0x01D02003 0 (start false [] m32) = some (0, 0x100, some (.memBounds 0x100 0x1D .word .read)) ∧
    stepReg 0x00142283 5 (start false [(8, 0xFFFFFFFF)] m32) = some (0, 0x100, some (.memBounds 0x100 0x100000000 .word .read)) := by decide
/-- LS-21, LS-27. -/
theorem test_sb : stepMem 0xFE208FA3 (start true [(1, 4), (2, 0xAABBCCDD)] mz) = some (⟨16, [(3, 0xDD)]⟩, 0x104, none) ∧
    stepMem 0x00000223 (start false [] ms) = some (⟨16, [(5, 0xFF), (6, 0x7F), (7, 0x80)]⟩, 0x104, none) := by decide
/-- LS-22. -/
theorem test_sh : stepMem 0x002090A3 (start false [(1, 4), (2, 0xAABBCCDD)] mz) = some (⟨16, [(5, 0xDD), (6, 0xCC)]⟩, 0x104, none) := by decide
/-- LS-23b, LS-24. -/
theorem test_sw : stepMem 0x0020A423 (start false [(1, 4), (2, 0x1122334455667788)] mz) = some (⟨16, [(12, 0x88), (13, 0x77), (14, 0x66), (15, 0x55)]⟩, 0x104, none) ∧
    stepMem 0x00202623 (start true [(2, 0xAABBCCDD)] mz) = some (⟨16, [(12, 0xDD), (13, 0xCC), (14, 0xBB), (15, 0xAA)]⟩, 0x104, none) := by decide
/-- LS-25, LS-28, LS-29. -/
theorem test_store_bounds : stepMem 0x002026A3 (start true [(2, 0xAABBCCDD)] mz) = some (mz, 0x100, some (.memBounds 0x100 0xD .word .write)) ∧
    stepMem 0x00200823 (start false [(2, 1)] mz) = some (mz, 0x100, some (.memBounds 0x100 0x10 .byte .write)) ∧
    stepMem 0x002017A3 (start true [(2, 0xFFFF)] mz) = some (mz, 0x100, some (.memBounds 0x100 0xF .half .write)) := by decide
/-- FN-1, FN-2. -/
theorem test_fence : stepReg 0x0FF0000F 1 (start true [(1, 7)] mz) = some (7, 0x104, none) ∧
    stepReg 0x0003028F 5 (start false [(5, 1), (6, 2)] mz) = some (1, 0x104, none) := by decide
/-- FN-3, FN-4. -/
theorem test_fenceI : stepReg 0x0000100F 1 (start true [(1, 7)] mz) = some (7, 0x104, none) ∧
    stepReg 0xFFFF9F8F 31 (start false [(31, 9)] mz) = some (9, 0x104, none) := by decide

/-! ### Width, primitives, engine (tables V-SX, V-W, V-EN) -/

theorem test_sign_extend : signExtendAt 0x123456F0 7 = 0xFFFFFFFFFFFFFFF0 ∧ signExtendAt 0xFFFFFFFFFFFFFF7F 7 = 0x7F ∧
    signExtendAt 0x800 11 = 0xFFFFFFFFFFFFF800 ∧ signExtendAt 0x17F 7 = 0x7F := by decide

/-- V-W lines 4, 5, 8, 13, 14. -/
theorem test_width_switch :
    let s := (start false [(1, 0x1122334455667788), (2, 0xFFFFFFFFFFFFFFFF), (3, 0x80000000)] mz).writePc 0x100000010
    let t := s.setWidthMode true
    let u := t.setWidthMode false
    t.readCell 1 = 0x55667788 ∧ t.pc = 0x10 ∧ t.readSignExtended 2 = 0xFFFFFFFFFFFFFFFF ∧
    t.readSignExtended 1 = 0x55667788 ∧ u.readCell 2 = 0xFFFFFFFF ∧ u.readSignExtended 2 = 0xFFFFFFFF ∧
    ((t.writePc 0x100000004).offsetPc 0xFFFFFFFFFFFFFFF8).pc = 0xFFFFFFFC := by decide

/-- V-W line 16 and the `set_pc` lines below it. -/
theorem test_pc_faults : ((start false [] mz).incrementPc 3).fault = some (.pcIncrement 3) ∧
    ((start true [] mz).setPc 0x101).fault = some (.pcAlign 0x101) ∧ ((start true [] mz).setPc 0x101).pc = 0x100 ∧
    ((start true [] mz).setPc 0x100000100).pc = 0x100 := by decide

theorem test_fault_codes : Fault.code (.fetchBounds 0) = 1 ∧ Fault.code (.decode 0 0) = 2 ∧
    Fault.code (.memBounds 0 0 .word .read) = 3 ∧ Fault.code (.pcAlign 1) = 4 ∧ Fault.code (.pcIncrement 3) = 5 := by decide

/-- The code of EN-1: `addi x1, x0, 1` and `addi x1, x1, 1`. -/
def code8 : List Byte := [0x93, 0x00, 0x10, 0x00, 0x93, 0x80, 0x10, 0x00]
/-- A native core with code loaded and the pc set. -/
def codeAt (bytes : List Byte) (pc : Word) : State := ((State.launch false mz).loadCode bytes).writePc pc

/-- EN-1, EN-2, EN-3, EN-4, EN-5, EN-8. -/
theorem test_fetch_bounds :
    (nextOf (step (codeAt code8 8))).map State.fault = some (some (.fetchBounds 8)) ∧
    (nextOf (step (codeAt code8 6))).map State.fault = some (some (.fetchBounds 6)) ∧
    (nextOf (step (codeAt code8 4))).map (fun t => (t.readCell 1, t.pc, t.fault)) = some (1, 8, none) ∧
    (nextOf (step (codeAt (code8.take 7) 4))).map State.fault = some (some (.fetchBounds 4)) ∧
    (nextOf (step State.reset)).map State.fault = some (some (.fetchBounds 0)) := by decide

/-- EN-6: the fetch at a pc that is 2 modulo 4. -/
theorem test_fetch_misaligned :
    (nextOf (step (codeAt [0x13, 0x00, 0x93, 0x00, 0x10, 0x00] 2))).map (fun t => (t.readCell 1, t.pc)) = some (1, 6) := by decide

/-- EN-7: a word that does not decode, with the trace flag set. -/
theorem test_decode_fault : (nextOf (step ((codeAt [0x73, 0, 0, 0] 0).setTrace true))).map (fun t => (t.fault, t.pc, t.sink)) =
    some (some (.decode 0 0x73), 0, []) := by decide

/-- EN-9: the trace line precedes the fault. -/
theorem test_trace_then_fault :
    (nextOf (step ((codeAt [0xA3, 0x26, 0x20, 0x00] 0).setTrace true))).map (fun t => (t.fault, t.pc, t.sink)) =
    some (some (.memBounds 0 13 .word .write), 0, [⟨0x002026A3, .sw 0 2 13⟩]) := by decide

/-- R195: a counted run of two steps, and one that stops at its fault. -/
theorem test_run : (nextOf (runCount 2 (codeAt code8 0))).map (fun t => (t.readCell 1, t.pc, t.fault)) = some (2, 8, none) ∧
    (nextOf (runCount 5 (codeAt code8 0))).map (fun t => (t.readCell 1, t.pc, t.fault)) = some (2, 8, some (.fetchBounds 8)) := by decide

/-- Every row of the opcode table, its operand bits zero, runs without a fault as the first instruction after reset (log 14). -/
theorem test_every_row_runs_first : ∀ row ∈ opcodeTable,
    (nextOf (step (State.reset.withFetchWord 32 row.pattern.toNat))).map State.fault = some none := by decide

/-! ### Witnesses: for every statement with hypotheses, a concrete state and operands that meet them, each clause at a
boundary of its range. The hypotheses are given as they stand there; what is said after them shows that the case is the one meant. -/

theorem witness_DecodeAndEncodeAreInverse : (Instr.bne 1 2 0x1FFE).wellFormed = true ∧
    decode 0x7FFFAFA3 = .instr (.sw 31 31 0x7FF) := by decide

theorem witness_DecodeFollowsTheOpcodeTable : decode 0x43F15093 = .instr (.srai 1 2 63) ∧
    (⟨"SRAI", 0xfc00707f, 0x40005013⟩ ∈ opcodeTable ∧ OpcodeRow.matchesWord ⟨"SRAI", 0xfc00707f, 0x40005013⟩ 0x43F15093 = true) ∧
    (∀ row ∈ opcodeTable, row.matchesWord 0x47F15093 = false) ∧ decode 0x47F15093 = .reject (.shiftBits 5 0x11) := by decide

theorem witness_DecodeFollowsTheOpcodeTable_engine : (codeAt [0x73, 0, 0, 0] 0).fault = none ∧
    (codeAt [0x73, 0, 0, 0] 0).pcX.toNat + 4 ≤ (codeAt [0x73, 0, 0, 0] 0).code.len ∧
    (∀ row ∈ opcodeTable, row.matchesWord (le32 (codeAt [0x73, 0, 0, 0] 0).code (codeAt [0x73, 0, 0, 0] 0).pcX.toNat) = false) := by decide

theorem witness_DecodedFieldsComeFromTheirBits : decode 0x7FFFFFEF = .instr (.jal 31 0xFFFFE) ∧
    decode 0x7FFF9FE3 = .instr (.bne 31 31 0xFFE) := by decide

theorem witness_JumpImmediateKeepsAllTwentyBits : decode 0x800000EF = .instr (.jal 1 0x100000) ∧
    (0x1FFFFE#21).getLsbD 0 = false := by decide

theorem witness_SystemAndCompressedWordsDoNotDecode : (0x00100073#32).extractLsb' 0 7 = 0x73#7 ∧
    (0x00000012#32).extractLsb' 0 2 ≠ 0b11#2 ∧ (codeAt [0x12, 0, 0, 0] 0).fault = none ∧
    (codeAt [0x12, 0, 0, 0] 0).pcX.toNat + 4 ≤ (codeAt [0x12, 0, 0, 0] 0).code.len ∧
    (le32 (codeAt [0x12, 0, 0, 0] 0).code (codeAt [0x12, 0, 0, 0] 0).pcX.toNat).extractLsb' 0 2 ≠ 0b11#2 ∧
    (le32 (codeAt [0x73, 0, 0, 0] 0).code (codeAt [0x73, 0, 0, 0] 0).pcX.toNat).extractLsb' 0 7 = 0x73#7 := by decide

theorem witness_SignExtensionCopiesTheSignBit : (63 < 64 ∧ (signExtendAt 0x8000000000000000 63).getLsbD 63 = true) ∧
    (0 < 1 ∧ 1 ≤ 64 ∧ sext (1#1) = 0xFFFFFFFFFFFFFFFF) ∧ (0 < 64 ∧ 64 ≤ 64 ∧ sext (5#64) = 5) := by decide

theorem witness_PcPrimitivesMaskAndWrap : (2#64).getLsbD 0 = false ∧ (1#64).getLsbD 0 = true := by decide

theorem witness_WidthSwitchTruncatesOnce : (start false [(1, 0x100000001)] mz).w32 = false ∧ (start true [] mz).w32 = true ∧
    ((start false [(1, 0x100000001)] mz).setWidthMode true).readCell 1 = 1 ∧ (start true [] mz).fault = none ∧
    (nextOf (exec (.addi 1 2 42) (start true [] mz))).isSome = true := by decide

/-- A launched core meets the invariant (a native one, and one in 32-bit mode). -/
theorem witness_Inv (w32 : Bool) (regs : List (RegIdx × Word)) (mem : Memory) (hm : mem.wf = true)
    (h0 : (start w32 regs mem).regs[0] = 0) (hr : (start w32 regs mem).w32 = true → ∀ i : Fin 32, narrow (start w32 regs mem).regs[i] = true)
    (hp : (start w32 regs mem).w32 = true → narrow (start w32 regs mem).pc = true)
    (hmem : (start w32 regs mem).mem = mem) (hc : (start w32 regs mem).code.wf = true) : Inv (start w32 regs mem) :=
  ⟨h0, hr, hp, by rw [hmem]; exact hm, hc⟩

theorem witness_NarrowModeReadsAreNarrow : Inv (start false [(1, 0x1FFFFFFFF)] mz) :=
  witness_Inv _ _ _ (by decide) (by decide) (by decide) (by decide) (by decide) (by decide)

theorem witness_NarrowReadsSeeTheLittleEndianImage : (codeAt code8 4).codeRead (codeAt code8 4).pcX = some 0x00108093 ∧ 3 < 4 ∧ 1 < 2 ∧
    (mz.writeLE 12 4 0xAABBCCDD).readLE (12 + 3) 1 = 0xAA ∧ (mz.writeLE 12 4 0xAABBCCDD).readLE (12 + 2 * 1) 2 = 0xAABB := by decide

theorem witness_MemReadIsBoundedAndLittleEndian : (31#64).toNat + 1 ≤ (start true [] m32).mem.len ∧
    (30#64).toNat + 2 ≤ (start true [] m32).mem.len ∧ (28#64).toNat + 4 ≤ (start true [] m32).mem.len ∧
    (start true [] m32).mem.len ≤ 2 ^ (start true [] m32).xlen ∧
    2 ^ (start true [] m32).xlen < (0xFFFFFFFD#64).toNat + AccessSize.word.bytes ∧
    (start true [] m32).memRead 28 .word = some 0x1F1E1D1C ∧ (start true [] m32).memRead 29 .word = none := by decide

theorem witness_MemWriteIsBoundedAndLittleEndian : ((start true [] mz).memWrite 12 .word 0xAABBCCDD).isSome = true ∧
    (start true [] mz).mem.len ≤ 2 ^ (start true [] mz).xlen ∧
    2 ^ (start true [] mz).xlen < (0xFFFFFFFF#64).toNat + AccessSize.half.bytes ∧
    3 < AccessSize.word.bytes ∧ (start true [] mz).memWrite 13 .word 0xAABBCCDD = none := by decide

theorem witness_CodeReadIsBoundedAndLittleEndian : (4#64).toNat + 4 ≤ (codeAt code8 0).code.len ∧
    (codeAt code8 0).codeRead 4 = some 0x00108093 ∧ (codeAt code8 0).codeRead 5 = none := by decide

theorem witness_CanonicalBuffersAreEqualWhenTheirBytesAre : ms.wf = true ∧ (mz.setBytes 4 [0x80, 0xFF, 0x7F, 0x80]).wf = true ∧
    ms.len = (mz.setBytes 4 [0x80, 0xFF, 0x7F, 0x80]).len ∧ (∀ a, ms.byteAt a = (mz.setBytes 4 [0x80, 0xFF, 0x7F, 0x80]).byteAt a) :=
  ⟨by decide, by decide, by decide, fun a => by rw [show mz.setBytes 4 [0x80, 0xFF, 0x7F, 0x80] = ms by decide]⟩

theorem witness_HintFormsOnlyAdvanceThePc : hasHintForm (.addi 0 2 42) = true ∧ destOf (.addi 0 2 42) = some 0 ∧
    hasHintForm (.lui 0 0x1000) = true ∧ destOf (.lui 0 0x1000) = some 0 := by decide

/-- The last address inside and the first outside, for each width, in both modes. -/
theorem witness_LoadsExtendOrFault : ea (start true [] m32) 0 31 + AccessSize.byte.bytes ≤ (start true [] m32).mem.len ∧
    ea (start false [] m32) 0 30 + AccessSize.half.bytes ≤ (start false [] m32).mem.len ∧
    ea (start true [(8, 0xFFFFFFFF)] m32) 8 29 + AccessSize.word.bytes ≤ (start true [(8, 0xFFFFFFFF)] m32).mem.len ∧
    (start true [] m32).mem.len < ea (start true [] m32) 0 32 + AccessSize.byte.bytes ∧
    (start false [] m32).mem.len < ea (start false [] m32) 0 31 + AccessSize.half.bytes ∧
    (start false [(8, 0xFFFFFFFF)] m32).mem.len < ea (start false [(8, 0xFFFFFFFF)] m32) 8 29 + AccessSize.word.bytes := by decide

theorem witness_StoresWriteTheLowBytes : ((start true [] mz).storeAddr 0 15).toNat = 15 ∧ 15 + AccessSize.byte.bytes ≤ (start true [] mz).mem.len ∧
    ((start false [] mz).storeAddr 0 14).toNat = 14 ∧ 14 + AccessSize.half.bytes ≤ (start false [] mz).mem.len ∧
    ((start true [] mz).storeAddr 0 12).toNat = 12 ∧ 12 + AccessSize.word.bytes ≤ (start true [] mz).mem.len ∧
    (start true [] mz).mem.len < 16 + AccessSize.byte.bytes ∧ (start true [] mz).mem.len < 15 + AccessSize.half.bytes ∧
    (start true [] mz).mem.len < 13 + AccessSize.word.bytes ∧ ((start true [] mz).storeAddr 0 13).toNat = 13 := by decide

theorem witness_StoreThenLoadReturnsTheWord : ea (start false [(1, 4), (2, 0x89ABCDEF)] mz) 1 8 + 4 ≤ (start false [(1, 4), (2, 0x89ABCDEF)] mz).mem.len := by decide

/-- A register form, a storing form with its range, and a load that faults: each answers a next state. -/
theorem witness_InstructionFrame : (nextOf (exec (.add 3 1 2) (start true [(1, 5)] mz))).isSome = true ∧
    (nextOf (exec (.sh 0 2 14) (start true [(2, 5)] mz))).isSome = true ∧ storedRange (.sh 0 2 14) (start true [(2, 5)] mz) = some (14, 2) ∧
    (nextOf (exec (.lw 5 0 13) (start true [] mz))).map State.fault = some (some (.memBounds 0x100 13 .word .read)) := by decide

theorem witness_StepRunsTheDecodedInstruction : (codeAt code8 4).fault = none ∧ (codeAt code8 4).pcX.toNat + 4 ≤ (codeAt code8 4).code.len ∧
    decode (le32 (codeAt code8 4).code (codeAt code8 4).pcX.toNat) = .instr (.addi 1 1 1) ∧ (Instr.addi 1 1 1).wellFormed = true := by decide

/-- Each clause: a traced step, the flag clear, the latch set, a fetch out of bounds by one byte, a word that does not decode. -/
theorem witness_TraceLinePrecedesExecution :
    (nextOf (step ((codeAt code8 4).setTrace true))).map State.sink = some [⟨0x00108093, .addi 1 1 1⟩] ∧
    (nextOf (step (codeAt code8 4))).map State.sink = some [] ∧
    (nextOf (step (((codeAt code8 4).setTrace true).raise (.pcAlign 1)))).map State.sink = some [] ∧
    (codeAt code8 5).code.len < (codeAt code8 5).pcX.toNat + 4 ∧
    (nextOf (step ((codeAt code8 5).setTrace true))).map State.sink = some [] ∧
    decode (le32 (codeAt [0x73, 0, 0, 0] 0).code (codeAt [0x73, 0, 0, 0] 0).pcX.toNat) = .reject (.opcode 0x73) := by decide

theorem witness_FaultPriorityFollowsTheStages : (codeAt code8 5).fault = none ∧ (codeAt code8 5).code.len < (codeAt code8 5).pcX.toNat + 4 ∧
    (codeAt [0x73, 0, 0, 0] 0).fault = none ∧ (codeAt [0x73, 0, 0, 0] 0).pcX.toNat + 4 ≤ (codeAt [0x73, 0, 0, 0] 0).code.len ∧
    decode (le32 (codeAt [0x73, 0, 0, 0] 0).code (codeAt [0x73, 0, 0, 0] 0).pcX.toNat) = .reject (.opcode 0x73) ∧
    (codeAt code8 4).fault = none ∧ (codeAt code8 4).pcX.toNat + 4 ≤ (codeAt code8 4).code.len ∧
    decode (le32 (codeAt code8 4).code (codeAt code8 4).pcX.toNat) = .instr (.addi 1 1 1) := by decide

theorem witness_FaultsArePrecise : (codeAt code8 8).fault = none ∧
    (nextOf (step (codeAt code8 8))).map State.fault = some (some (.fetchBounds 8)) ∧
    (nextOf (step (codeAt [0x73, 0, 0, 0] 0))).map State.fault = some (some (.decode 0 0x73)) ∧
    (nextOf (step ((start true [] mz).withFetchWord 32 0x002026A3))).map State.fault = some (some (.memBounds 0x100 13 .word .write)) ∧
    (nextOf (perform (.setPc 1) (codeAt code8 8))).map State.fault = some (some (.pcAlign 1)) ∧
    (nextOf (perform (.incrementPc 3) (codeAt code8 8))).map State.fault = some (some (.pcIncrement 3)) ∧
    ((codeAt code8 8).raise (.pcAlign 1)).fault = some (.pcAlign 1) := by decide

theorem witness_LatchedCoreDoesNothing : ((codeAt code8 0).raise (.pcAlign 1)).fault = some (.pcAlign 1) ∧
    (∀ w m, HostOp.setPc 4 ≠ .reset w m) := ⟨by decide, fun _ _ h => nomatch h⟩

theorem witness_StepKeepsTheInvariant : Inv (start true [(1, 5)] ms) ∧ (nextOf (step (start true [(1, 5)] ms))).isSome = true :=
  ⟨witness_Inv _ _ _ (by decide) (by decide) (by decide) (by decide) (by decide) (by decide), by decide⟩

theorem witness_HostOperationsKeepTheInvariant : Inv (start true [(1, 5)] ms) ∧
    (∀ w m, HostOp.reset false ms = .reset w m → m.wf = true) ∧
    (nextOf (perform (.reset false ms) (start true [(1, 5)] ms))).isSome = true ∧
    (nextOf (perform (.setWidthMode false) (start true [(1, 5)] ms))).isSome = true :=
  ⟨witness_Inv _ _ _ (by decide) (by decide) (by decide) (by decide) (by decide) (by decide),
    fun w m h => by cases h; decide, by decide, by decide⟩

theorem witness_StepKeepsThePcEven : (codeAt code8 4).pc.getLsbD 0 = false ∧ (nextOf (step (codeAt code8 4))).isSome = true ∧
    (nextOf (step ((codeAt code8 4).withFetchWord 32 0x0020006F))).map State.pc = some 6 := by decide

theorem witness_CountedRunEndsOrStopsAtTheFirstFault : (codeAt code8 0).fault = none ∧
    (nextOf (runCount 3 (codeAt code8 0))).map State.fault = some (some (.fetchBounds 8)) ∧
    (nextOf (runCount 2 (codeAt code8 0))).map State.fault = some none := by decide

theorem witness_StepNeverTouchesCodeOrModes : (nextOf (step (codeAt code8 0))).isSome = true ∧
    (nextOf (perform (.loadCode [1]) (codeAt code8 0))).map (fun t => t.code.len) = some 1 ∧
    (nextOf (perform (.setTrace true) (codeAt code8 0))).map State.trace = some true ∧
    (nextOf (perform (.setWidthMode true) (codeAt code8 0))).map State.w32 = some true := by decide

theorem witness_ResetStateIsAsDecided : (nextOf (perform (.reset true ms) (codeAt code8 8))).map State.w32 = some true ∧
    (nextOf (perform (.reset false mz) ((codeAt code8 8).raise (.pcAlign 1)))).map State.fault = some none := by decide

theorem witness_ResetMeetsTheInvariant : ms.wf = true ∧ State.reset.mem.wf = true := by decide

theorem witness_LoadCodeReplacesTheCodeBuffer : (codeAt code8 0).fault = none ∧ 2 < ([1, 0, 3] : List Byte).length ∧
    (nextOf (perform (.loadCode [1, 0, 3]) (codeAt code8 0))).map (fun t => t.code.byteAt 2) = some 3 := by decide

theorem witness_SetPcRequiresAnEvenAddress : (codeAt code8 0).fault = none ∧ (0x102#64).getLsbD 0 = false ∧ (0x101#64).getLsbD 0 = true := by decide

theorem witness_HostRegisterAndPcAccess : (start true [(1, 5)] mz).fault = none ∧ (4#64).getLsbD 0 = false ∧ (3#64).getLsbD 0 = true ∧
    (nextOf (perform (.writeReg 1 0x1FFFFFFFF) (start true [(1, 5)] mz))).map (fun t => t.readCell 1) = some 0xFFFFFFFF ∧
    (nextOf (perform (.writePc 0x100000003) (start true [(1, 5)] mz))).map State.pc = some 3 ∧
    (nextOf (perform (.incrementPc 3) (start true [(1, 5)] mz))).map State.fault = some (some (.pcIncrement 3)) := by decide

theorem witness_TraceFlagChangesOnlyTheLines : (codeAt code8 4).fault = none ∧
    (nextOf (step (codeAt code8 4))).map (fun t => (t.readCell 1, t.pc, t.sink.length)) = some (1, 8, 0) ∧
    (nextOf (step { codeAt code8 4 with trace := true })).map (fun t => (t.readCell 1, t.pc, t.sink.length)) = some (1, 8, 1) := by
  decide

theorem witness_HostMemoryAccessStaysInBounds : (start true [] mz).fault = none ∧ 14 + ([1, 2] : List Byte).length ≤ (start true [] mz).mem.len ∧
    (start true [] mz).mem.len < 15 + ([1, 2] : List Byte).length ∧
    (nextOf (perform (.writeMem 14 [1, 2]) (start true [] mz))).map State.mem = some ⟨16, [(14, 1), (15, 2)]⟩ ∧
    (nextOf (perform (.writeMem 15 [1, 2]) (start true [] mz))).isNone = true := by decide

theorem witness_IsaActivationSetsTheWidthOnly : (codeAt code8 0).fault = none := by decide

theorem witness_PlacedWordIsRunNext : decode 0x02A10093 = .instr (.addi 1 2 42) := by decide

end Sys2Proof.Tests
end

section
/-! The sign-extension primitive (spec/00_scope.md R7). -/

namespace Sys2Proof.Proofs.Scope

open Machine

/-- Settles O8: the two halves are the laws of `sign_extend`, bit by bit, and of `sext_N`. The bit law holds because the
mask OR'd in (sign bit 1) or cleared (sign bit 0) has exactly the bits above the sign index; `sext_N` reads it at index
`N - 1`, the sign bit of the `N`-bit value. -/
theorem signExtensionCopiesTheSignBit : Obligations.SignExtensionCopiesTheSignBit := by
  unfold Obligations.SignExtensionCopiesTheSignBit
  constructor
  · intro v k hk j hj
    exact getLsbD_signExtendAt v k j hk hj
  · intro n v hpos hle
    exact sext_eq_signExtend v hpos hle

end Sys2Proof.Proofs.Scope
end

section
/-! The state (spec/10_state.md R10 to R33): registers, the program counter, the width mode, and reset. -/

namespace Sys2Proof.Proofs.StateRules

open Machine Claims

/-! ### Masking to the width mode (R19, R22) -/

/-- `trunc_XLEN` in the words of the statements: the low 32 bits zero-extended, or the value. -/
theorem trunc_eq_byWidth (s : State) (v : Word) : s.trunc v = byWidth s (v.setWidth 32) v := rfl

theorem writePc_eq_byWidth (s : State) (v : Word) : s.writePc v = { s with pc := byWidth s (v.setWidth 32) v } := rfl

/-- The sum wraps at each width because taking the low half commutes with addition (R23). -/
theorem offsetPc_eq_byWidth (s : State) (v : Word) :
    s.offsetPc v = { s with pc := byWidth s (pc32 s + v.setWidth 32) (pc64 s + v) } := by
  rw [offsetPc_eq, writePc_eq_byWidth, setWidth32_add]; rfl

/-! ### What a register write leaves in the state (R19) -/

theorem readCell_writeReg_self (s : State) (i : RegIdx) (v : Word) :
    (s.writeReg i v).readCell i = if i = 0 then 0 else byWidth s (v.setWidth 32) v := by
  rw [readCell_writeReg, if_pos rfl, trunc_eq_byWidth]

theorem regsSameBut_writeReg (s : State) (i : RegIdx) (v : Word) : RegsSameBut i s (s.writeReg i v) :=
  fun j hj => by rw [readCell_writeReg, if_neg hj]

theorem restSame_writeReg (s : State) (i : RegIdx) (v : Word) : RestSame s (s.writeReg i v) :=
  ⟨writeReg_w32 s i v, writeReg_trace s i v, writeReg_fault s i v, writeReg_code s i v, writeReg_sink s i v⟩

theorem memSame_writeReg (s : State) (i : RegIdx) (v : Word) : MemSame s (s.writeReg i v) := by
  unfold MemSame; rw [writeReg_mem]; exact ⟨rfl, fun _ => rfl⟩

/-! ### Host operations, instructions and reset -/

/-- R227: on a core with a fault latched every host operation but reset is a no-op. -/
theorem perform_latched {op : HostOp} {s : State} {f : Fault} (hf : s.fault = some f)
    (hop : ∀ w m, op ≠ .reset w m) : perform op s = .next s := by
  cases op with
  | reset w m => exact absurd rfl (hop w m)
  | _ => simp only [perform, hf]

/-- No shape of effect writes the width mode. -/
theorem effect_w32 {i : Instr} {s t : State} (h : Effect i s t) : t.w32 = s.w32 := by
  cases h with
  | reg rd r p _ => rw [writePc_w32, writeReg_w32]
  | stored a n v _ => rw [writePc_w32]
  | fault addr size dir _ => rw [raise_w32]

theorem exec_w32 {i : Instr} {s t : State} (h : exec i s = .next t) : t.w32 = s.w32 := by
  obtain ⟨t', ht', he⟩ := exec_effect i s
  cases h.symm.trans ht'
  exact effect_w32 he

theorem readCell_launch (w32 : Bool) (mem : Memory) (i : RegIdx) : (State.launch w32 mem).readCell i = 0 := by
  unfold State.readCell
  split
  · rfl
  · simp only [launch_regs, Vector.getElem_replicate]

/-! ### The statements -/

/-- Settles O10: the written cell and the other cells are what `readCell_writeReg` says of a write, and the other fields
are the frame of `writeReg`. -/
theorem registerWriteMasksToTheWidth : Obligations.RegisterWriteMasksToTheWidth := by
  unfold Obligations.RegisterWriteMasksToTheWidth
  intro s i v
  exact ⟨readCell_writeReg_self s i v, writeReg_zero s v, regsSameBut_writeReg s i v, writeReg_pc s i v,
    restSame_writeReg s i v, memSame_writeReg s i v⟩

/-- Settles O11: in 32-bit mode the read is the two's-complement extension of the low half, which has the same signed
value; in native mode it is the cell. -/
theorem signExtendedReadIsTheSignedReading : Obligations.SignExtendedReadIsTheSignedReading := by
  unfold Obligations.SignExtendedReadIsTheSignedReading
  intro s i
  change (s.sx i).toInt = _
  cases hw : s.w32 with
  | true =>
    rw [sx_eq_signExtend hw, BitVec.toInt_signExtend_of_le (by decide), if_pos rfl]; rfl
  | false =>
    rw [sx_eq_cell hw, if_neg Bool.false_ne_true]; rfl

/-- Settles O13: the three switches are the laws of `set_width_mode`, and an instruction's effect, of whatever shape, keeps
the width mode. -/
theorem widthSwitchTruncatesOnce : Obligations.WidthSwitchTruncatesOnce := by
  unfold Obligations.WidthSwitchTruncatesOnce
  intro s
  refine ⟨fun hw => ⟨?_, readCell_narrows s hw, ?_⟩, setWidthMode_widens s, setWidthMode_keeps s, ?_, ?_⟩
  · rw [setWidthMode_narrows s hw]
  · rw [setWidthMode_narrows s hw]
    exact ⟨rfl, rfl, rfl, rfl, rfl, rfl⟩
  · intro b hf
    rw [perform_running _ s hf]; rfl
  · exact fun i t h => exec_w32 h

/-- Settles O9: the read and write primitives answer index 0 by their own case, and the host's write is the write primitive
on a running core and a no-op on a latched one. -/
theorem registerZeroIsHardWired : Obligations.RegisterZeroIsHardWired := by
  unfold Obligations.RegisterZeroIsHardWired
  intro s v
  refine ⟨readCell_zero s, ?_, writeReg_zero s v, ?_⟩
  · unfold State.readSignExtended; rw [readCell_zero]; split <;> rfl
  · cases hf : s.fault with
    | none => rw [perform_running _ s hf]; exact congrArg Host.Outcome.next (writeReg_zero s v)
    | some f => exact perform_latched hf fun _ _ h => nomatch h

/-- Settles O12: `write_pc` masks as `trunc` does, `offset_pc` is `write_pc` of the sum, and `increment_pc` decides on bit 0
of the size. -/
theorem pcPrimitivesMaskAndWrap : Obligations.PcPrimitivesMaskAndWrap := by
  unfold Obligations.PcPrimitivesMaskAndWrap
  intro s v
  exact ⟨writePc_eq_byWidth s v, offsetPc_eq_byWidth s v, incrementPc_even s v, incrementPc_odd s v⟩

/-- Settles O52: reset answers the launched state whatever the latch holds, and the launched state is read field by
field. -/
theorem resetStateIsAsDecided : Obligations.ResetStateIsAsDecided := by
  unfold Obligations.ResetStateIsAsDecided
  refine ⟨fun _ _ _ => rfl, fun w32 mem => ⟨readCell_launch w32 mem, launch_pc w32 mem, launch_w32 w32 mem,
    launch_trace w32 mem, launch_fault w32 mem, ?_, launch_mem w32 mem⟩, Config.resetW32, _, rfl⟩
  rw [launch_code]

end Sys2Proof.Proofs.StateRules
end

section
/-! The buffers (spec/20_memory.md R43 to R46) and the order of a step's faults (spec/60_exceptions.md R224). -/

namespace Sys2Proof.Proofs.MemoryRules

open Machine Claims

/-! ### Byte order (R43) -/

/-- A byte placed at byte position `k` of a vector gives the bits whose index lies in that byte. -/
theorem getLsbD_placeAt_byte (n k j : Nat) (b : Byte) :
    (placeAt n b (8 * k)).getLsbD j = (decide (j < n) && (decide (j / 8 = k) && b.getLsbD (j % 8))) := by
  rw [getLsbD_placeAt]
  by_cases hk : j / 8 = k
  · have hle : 8 * k ≤ j := by omega
    have hmod : j - 8 * k = j % 8 := by omega
    simp only [hk, hle, hmod]
  · have hout : (decide (8 * k ≤ j) && b.getLsbD (j - 8 * k)) = false := by
      by_cases hle : 8 * k ≤ j
      · rw [BitVec.getLsbD_of_ge b _ (by omega), Bool.and_false]
      · rw [decide_eq_false hle, Bool.false_and]
    rw [hout, decide_eq_false hk, Bool.false_and]

theorem getLsbD_le16 (m : Memory) (a j : Nat) :
    (le16 m a).getLsbD j = (decide (j < 8 * 2) && (m.byteAt (a + j / 8)).getLsbD (j % 8)) := by
  have h0 := getLsbD_placeAt_byte 16 0 j (m.byteAt a)
  have h1 := getLsbD_placeAt_byte 16 1 j (m.byteAt (a + 1))
  unfold le16
  rw [BitVec.getLsbD_or, h0, h1]
  by_cases hj : j < 16
  · have hbyte : j / 8 = 0 ∨ j / 8 = 1 := by omega
    rcases hbyte with h | h <;> simp [h, hj]
  · simp [hj]

theorem getLsbD_le32 (m : Memory) (a j : Nat) :
    (le32 m a).getLsbD j = (decide (j < 8 * 4) && (m.byteAt (a + j / 8)).getLsbD (j % 8)) := by
  have h0 := getLsbD_placeAt_byte 32 0 j (m.byteAt a)
  have h1 := getLsbD_placeAt_byte 32 1 j (m.byteAt (a + 1))
  have h2 := getLsbD_placeAt_byte 32 2 j (m.byteAt (a + 2))
  have h3 := getLsbD_placeAt_byte 32 3 j (m.byteAt (a + 3))
  unfold le32
  rw [BitVec.getLsbD_or, BitVec.getLsbD_or, BitVec.getLsbD_or, h0, h1, h2, h3]
  by_cases hj : j < 32
  · have hbyte : j / 8 = 0 ∨ j / 8 = 1 ∨ j / 8 = 2 ∨ j / 8 = 3 := by omega
    rcases hbyte with h | h | h | h <;> simp [h, hj]
  · simp [hj]

/-- A vector with the bits of the little-endian bytes is what a read of those bytes gives. -/
theorem readLE_eq_of_bits {w : Nat} (m : Memory) (a n : Nat) (v : BitVec w) (hn : n ≤ 8)
    (h : ∀ j, v.getLsbD j = (decide (j < 8 * n) && (m.byteAt (a + j / 8)).getLsbD (j % 8))) :
    m.readLE a n = v.setWidth 64 := by
  apply BitVec.eq_of_getLsbD_eq
  intro j hj
  rw [getLsbD_readLE m a n j hn, BitVec.getLsbD_setWidth, h j, decide_eq_true hj, Bool.true_and]

theorem readLE_one (m : Memory) (a : Nat) : m.readLE a 1 = (m.byteAt a).setWidth 64 := by
  simp [Memory.readLE]

theorem readLE_two (m : Memory) (a : Nat) : m.readLE a 2 = (le16 m a).setWidth 64 :=
  readLE_eq_of_bits m a 2 _ (by decide) (getLsbD_le16 m a)

theorem readLE_four (m : Memory) (a : Nat) : m.readLE a 4 = (le32 m a).setWidth 64 :=
  readLE_eq_of_bits m a 4 _ (by decide) (getLsbD_le32 m a)

/-- The word the fetch makes of its four bytes (R46). -/
theorem fetchedWord_eq_le32 (m : Memory) (a : Nat) : (m.readLE a 4).setWidth 32 = le32 m a := by
  rw [readLE_four, setWidth_setWidth32]

theorem codeRead_eq_le32 (s : State) (addr : Word) (h : addr.toNat + 4 ≤ s.code.len) :
    s.codeRead addr = some (le32 s.code addr.toNat) := by
  rw [codeRead_some s addr h, fetchedWord_eq_le32]

/-- A narrower read inside a store's range is a slice of the stored value. -/
theorem readLE_inside_eq_extract (m : Memory) (a o n w : Nat) (v : Word) (h : o + n ≤ w) (hn : n ≤ 8) :
    (m.writeLE a w v).readLE (a + o) n = (v.extractLsb' (8 * o) (8 * n)).setWidth 64 := by
  apply BitVec.eq_of_getLsbD_eq
  intro j hj
  rw [readLE_inside m a o n w v h hn, BitVec.getLsbD_setWidth, BitVec.getLsbD_extractLsb', decide_eq_true hj,
    Bool.true_and]

/-- Settles O16: reads and the fetch are the little-endian value because they have its bits, and a narrower read inside a
4-byte store is the slice of the stored value at that offset. -/
theorem narrowReadsSeeTheLittleEndianImage : Obligations.NarrowReadsSeeTheLittleEndianImage := by
  unfold Obligations.NarrowReadsSeeTheLittleEndianImage
  refine ⟨fun m a => ⟨readLE_one m a, readLE_two m a, readLE_four m a⟩, ?_, fun m a v => ⟨?_, ?_⟩⟩
  · intro s w hw
    rcases Nat.lt_or_ge s.code.len (s.pcX.toNat + 4) with hb | hb
    · rw [codeRead_none s _ hb] at hw; cases hw
    · rw [codeRead_eq_le32 s _ hb] at hw; exact (Option.some.inj hw).symm
  · exact fun k hk => readLE_inside_eq_extract m a k 1 4 v (by omega) (by decide)
  · intro k hk
    rw [readLE_inside_eq_extract m a (2 * k) 2 4 v (by omega) (by decide), ← Nat.mul_assoc]

/-! ### The fault of the execute stage (R224) -/

/-- Executing `i` left the fault latch alone, or took the bounds fault of the access `i` makes and changed nothing else. -/
def KeepsLatchOrFaultsOnAccess (i : Instr) (s t : State) : Prop :=
  t.fault = s.fault ∨ ∃ addr size dir, accessOf i s = some (addr, size, dir) ∧ s.mem.len < addr.toNat + size.bytes ∧
    t = s.raise (.memBounds s.pcX addr size dir)

theorem complete_keepsLatch {s t : State} {rd : RegIdx} {r : Word} (h : s.complete rd r = .next t) :
    t.fault = s.fault := by
  rw [complete_eq] at h; cases h; rw [writePc_fault, writeReg_fault]

theorem branch_keepsLatch {s t : State} {taken : Bool} {m : BitVec 13} (h : s.branch taken m = .next t) :
    t.fault = s.fault := by
  rw [branch_eq] at h; cases h; rw [writePc_fault]

theorem load_latch {i : Instr} {s t : State} {size : AccessSize} {sg : Bool} {rd rs1 : RegIdx} {m : BitVec 12}
    (hacc : accessOf i s = some (s.loadAddr rs1 m, size, .read)) (h : s.load size sg rd rs1 m = .next t) :
    KeepsLatchOrFaultsOnAccess i s t := by
  rcases Nat.lt_or_ge s.mem.len ((s.loadAddr rs1 m).toNat + size.bytes) with hb | hb
  · rw [load_outOfBounds s size sg rd rs1 m hb] at h
    cases h; exact .inr ⟨_, _, _, hacc, hb, rfl⟩
  · rw [load_inBounds s size sg rd rs1 m hb] at h
    exact .inl (complete_keepsLatch h)

theorem store_latch {i : Instr} {s t : State} {size : AccessSize} {rs1 rs2 : RegIdx} {m : BitVec 12}
    (hacc : accessOf i s = some (s.storeAddr rs1 m, size, .write)) (h : s.store size rs1 rs2 m = .next t) :
    KeepsLatchOrFaultsOnAccess i s t := by
  rcases Nat.lt_or_ge s.mem.len ((s.storeAddr rs1 m).toNat + size.bytes) with hb | hb
  · rw [store_outOfBounds s size rs1 rs2 m hb] at h
    cases h; exact .inr ⟨_, _, _, hacc, hb, rfl⟩
  · rw [store_inBounds s size rs1 rs2 m hb] at h
    cases h; exact .inl (writePc_fault _ _)

/-- Only a load or a store faults in execute, and only on its own access. -/
theorem exec_latch {i : Instr} {s t : State} (h : exec i s = .next t) : KeepsLatchOrFaultsOnAccess i s t := by
  cases i with
  | lb | lh | lw | lbu | lhu => exact load_latch rfl h
  | sb | sh | sw => exact store_latch rfl h
  | jal rd m => cases h; exact .inl ((offsetPc_fault _ _).trans (writeReg_fault s rd _))
  | jalr rd rs1 m => cases h; exact .inl ((writePc_fault _ _).trans (writeReg_fault s rd _))
  | beq | bne | blt | bge | bltu | bgeu => exact .inl (branch_keepsLatch h)
  | fence | fenceI => cases h; exact .inl (advance_fault s)
  | lui | auipc | addi | slti | sltiu | xori | ori | andi | slli | srli | srai => exact .inl (complete_keepsLatch h)
  | add | sub | sll | slt | sltu | xor | srl | sra | or | and => exact .inl (complete_keepsLatch h)

/-! ### The trace stage does not move the access (R193) -/

theorem accessOf_withOutput (i : Instr) (s : State) (b : Bool) (l : List TraceLine) :
    accessOf i (s.withOutput b l) = accessOf i s := by
  cases i <;> rfl

theorem accessOf_emitTrace (i j : Instr) (s : State) : accessOf i (s.emitTrace j) = accessOf i s := by
  unfold State.emitTrace
  split
  · exact accessOf_withOutput i s s.trace _
  · rfl

/-! ### The stages of a step (R190 to R194) -/

theorem step_eq_runWord_le32 {s : State} (hf : s.fault = none) (hb : s.pcX.toNat + 4 ≤ s.code.len) :
    step s = runWord (le32 s.code s.pcX.toNat) s := by
  rw [step_fetched s hf hb, fetchedWord_eq_le32]

/-- Settles O43: the fetch and decode stages answer before execute is reached, and the execute stage, which starts with a
clear latch, leaves it clear or takes the fault of the instruction's own access. -/
theorem faultPriorityFollowsTheStages : Obligations.FaultPriorityFollowsTheStages := by
  unfold Obligations.FaultPriorityFollowsTheStages
  intro s hf
  refine ⟨step_fetch_fault s hf, ?_, ?_⟩
  · intro r hb hd
    rw [step_eq_runWord_le32 hf hb, runWord_reject hd]; rfl
  · intro i hb hd
    obtain ⟨t, ht, _⟩ := exec_effect i (s.emitTrace i)
    refine ⟨t, by rw [step_eq_runWord_le32 hf hb, runWord_instr hd, ht], ?_⟩
    rcases exec_latch ht with hkeep | ⟨addr, size, dir, hacc, _, hraise⟩
    · rw [emitTrace_fault, hf] at hkeep
      exact .inl hkeep
    · rw [accessOf_emitTrace] at hacc
      rw [emitTrace_pcX] at hraise
      exact .inr ⟨addr, size, dir, hacc, by rw [hraise, raise_fault]⟩

end Sys2Proof.Proofs.MemoryRules
end

section
/-! The codec (spec/30_encoding.md R60 to R78): what a decoded instruction keeps of its word, and the rows of the opcode
table. -/

namespace Sys2Proof.Proofs.Encoding

open Machine Claims MemoryRules

/-! ### The fields that decode reads stand at the bits of their format (R61, R63) -/

section
variable (w : InstrWord)

theorem rdAt_rdOf : RdAt w (rdOf w) := fun j hj => by
  rw [rdOf, BitVec.getLsbD_extractLsb', decide_eq_true hj, Bool.true_and]

theorem rs1At_rs1Of : Rs1At w (rs1Of w) := fun j hj => by
  rw [rs1Of, BitVec.getLsbD_extractLsb', decide_eq_true hj, Bool.true_and]

theorem rs2At_rs2Of : Rs2At w (rs2Of w) := fun j hj => by
  rw [rs2Of, BitVec.getLsbD_extractLsb', decide_eq_true hj, Bool.true_and]

theorem immIAt_immIOf : ImmIAt w (immIOf w) := fun j hj => by
  rw [immIOf, BitVec.getLsbD_extractLsb', decide_eq_true hj, Bool.true_and]

theorem shamtAt_shamtOf : ShamtAt w (shamtOf w) := fun j hj => by
  rw [shamtOf, BitVec.getLsbD_extractLsb', decide_eq_true hj, Bool.true_and]

theorem immSAt_immSOf : ImmSAt w (immSOf w) := by
  refine ⟨fun j _ => ?_, fun j _ _ => ?_⟩ <;>
    simp only [immSOf, BitVec.getLsbD_or, getLsbD_placeAt, BitVec.getLsbD_extractLsb']
  · interval_cases j <;> simp
  · interval_cases j <;> simp

theorem immUAt_immUOf : ImmUAt w (immUOf w) := by
  refine ⟨fun j hj => ?_, fun j hlo hhi => ?_⟩ <;> rw [immUOf, getLsbD_placeAt]
  · simp [Nat.not_le.mpr hj]
  · simp [hlo, hhi, show j - 12 < 20 by omega]

theorem immBAt_immBOf : ImmBAt w (immBOf w) := by
  refine ⟨immBOf_bit0 w, fun j _ _ => ?_, fun j _ _ => ?_, ?_, ?_⟩ <;>
    simp only [immBOf, BitVec.getLsbD_or, getLsbD_placeAt, BitVec.getLsbD_extractLsb']
  · interval_cases j <;> simp
  · interval_cases j <;> simp
  · simp
  · simp

theorem immJAt_immJOf : ImmJAt w (immJOf w) := by
  refine ⟨immJOf_bit0 w, fun j _ _ => ?_, ?_, fun j _ _ => ?_, ?_⟩ <;>
    simp only [immJOf, BitVec.getLsbD_or, getLsbD_placeAt, BitVec.getLsbD_extractLsb']
  · interval_cases j <;> simp
  · simp
  · interval_cases j <;> simp
  · simp

theorem layoutR_fieldsAt : RdAt w (rdOf w) ∧ Rs1At w (rs1Of w) ∧ Rs2At w (rs2Of w) :=
  ⟨rdAt_rdOf w, rs1At_rs1Of w, rs2At_rs2Of w⟩
theorem layoutI_fieldsAt : RdAt w (rdOf w) ∧ Rs1At w (rs1Of w) ∧ ImmIAt w (immIOf w) :=
  ⟨rdAt_rdOf w, rs1At_rs1Of w, immIAt_immIOf w⟩
theorem layoutShift_fieldsAt : RdAt w (rdOf w) ∧ Rs1At w (rs1Of w) ∧ ShamtAt w (shamtOf w) :=
  ⟨rdAt_rdOf w, rs1At_rs1Of w, shamtAt_shamtOf w⟩
theorem layoutS_fieldsAt : Rs1At w (rs1Of w) ∧ Rs2At w (rs2Of w) ∧ ImmSAt w (immSOf w) :=
  ⟨rs1At_rs1Of w, rs2At_rs2Of w, immSAt_immSOf w⟩
theorem layoutB_fieldsAt : Rs1At w (rs1Of w) ∧ Rs2At w (rs2Of w) ∧ ImmBAt w (immBOf w) :=
  ⟨rs1At_rs1Of w, rs2At_rs2Of w, immBAt_immBOf w⟩

/-! ### What decode extracts is representable (R63, R66) -/

theorem immBOk_immBOf : immBOk (immBOf w) = true := by rw [immBOk, immBOf_bit0]; rfl
theorem immJOk_immJOf : immJOk (immJOf w) = true := by rw [immJOk, immJOf_bit0]; rfl
theorem immUOk_immUOf : immUOk (immUOf w) = true := by rw [immUOk, immUOf_low]; rfl

end

/-! ### What a decoded instruction keeps of its word

One lemma per layout of R62, for every instruction of the layout, then one per group of opcodes. -/

/-- `i` is representable, its word is `w`, and its fields are read from the bits of `w`. -/
structure Reads (w : InstrWord) (i : Instr) : Prop where
  wellFormed : i.wellFormed = true
  encodes : encodeWord i = w
  fields : FieldsFrom w i

section
variable {w : InstrWord} {op : BitVec 7} {f3 : BitVec 3} {f6 : BitVec 6} {f7 : BitVec 7} {i : Instr}

theorem packR_of_fields (h7 : funct7Of w = f7) (h3 : funct3Of w = f3) (hop : opcodeOf w = op) :
    packR f7 (rs2Of w) (rs1Of w) f3 (rdOf w) op = w := by
  subst h7 h3 hop; exact packR_fields w

theorem packI_of_fields (h3 : funct3Of w = f3) (hop : opcodeOf w = op) :
    packI (immIOf w) (rs1Of w) f3 (rdOf w) op = w := by
  subst h3 hop; exact packI_fields w

theorem packShift_of_fields (h6 : funct6Of w = f6) (h3 : funct3Of w = f3) (hop : opcodeOf w = op) :
    packShift f6 (shamtOf w) (rs1Of w) f3 (rdOf w) op = w := by
  subst h6 h3 hop; exact packShift_fields w

theorem packS_of_fields (h3 : funct3Of w = f3) (hop : opcodeOf w = op) :
    packS (immSOf w) (rs2Of w) (rs1Of w) f3 op = w := by
  subst h3 hop; exact packS_fields w

theorem packB_of_fields (h3 : funct3Of w = f3) (hop : opcodeOf w = op) :
    packB (immBOf w) (rs2Of w) (rs1Of w) f3 op = w := by
  subst h3 hop; exact packB_fields w

theorem packU_of_fields (hop : opcodeOf w = op) : packU (immUOf w) (rdOf w) op = w := by
  subst hop; exact packU_fields w

theorem packJ_of_fields (hop : opcodeOf w = op) : packJ (immJOf w) (rdOf w) op = w := by
  subst hop; exact packJ_fields w

theorem reads_of_decodeJalr (hop : opcodeOf w = 0b1100111#7) (h : decodeJalr w = .instr i) : Reads w i := by
  unfold decodeJalr at h
  split at h <;> cases h
  exact ⟨rfl, packI_of_fields ‹_› hop, layoutI_fieldsAt w⟩

theorem reads_of_decodeBranch (hop : opcodeOf w = 0b1100011#7) (h : decodeBranch w = .instr i) : Reads w i := by
  unfold decodeBranch at h
  split_ifs at h <;> cases h <;>
    exact ⟨immBOk_immBOf w, packB_of_fields ‹_› hop, layoutB_fieldsAt w⟩

theorem reads_of_decodeLoad (hop : opcodeOf w = 0b0000011#7) (h : decodeLoad w = .instr i) : Reads w i := by
  unfold decodeLoad at h
  split_ifs at h <;> cases h <;>
    exact ⟨rfl, packI_of_fields ‹_› hop, layoutI_fieldsAt w⟩

theorem reads_of_decodeStore (hop : opcodeOf w = 0b0100011#7) (h : decodeStore w = .instr i) : Reads w i := by
  unfold decodeStore at h
  split_ifs at h <;> cases h <;>
    exact ⟨rfl, packS_of_fields ‹_› hop, layoutS_fieldsAt w⟩

theorem reads_of_decodeRegImm (hop : opcodeOf w = 0b0010011#7) (h : decodeRegImm w = .instr i) : Reads w i := by
  unfold decodeRegImm at h
  split_ifs at h with h0 h2 h3 h4 h6 h7 h1 hl hl ha <;> cases h
  · exact ⟨rfl, packI_of_fields h0 hop, layoutI_fieldsAt w⟩
  · exact ⟨rfl, packI_of_fields h2 hop, layoutI_fieldsAt w⟩
  · exact ⟨rfl, packI_of_fields h3 hop, layoutI_fieldsAt w⟩
  · exact ⟨rfl, packI_of_fields h4 hop, layoutI_fieldsAt w⟩
  · exact ⟨rfl, packI_of_fields h6 hop, layoutI_fieldsAt w⟩
  · exact ⟨rfl, packI_of_fields h7 hop, layoutI_fieldsAt w⟩
  · exact ⟨rfl, packShift_of_fields hl h1 hop, layoutShift_fieldsAt w⟩
  · exact ⟨rfl, packShift_of_fields hl (funct3_five _ h0 h2 h3 h4 h6 h7 h1) hop, layoutShift_fieldsAt w⟩
  · exact ⟨rfl, packShift_of_fields ha (funct3_five _ h0 h2 h3 h4 h6 h7 h1) hop, layoutShift_fieldsAt w⟩

theorem reads_of_decodeRegReg (hop : opcodeOf w = 0b0110011#7) (h : decodeRegReg w = .instr i) : Reads w i := by
  unfold decodeRegReg at h
  split_ifs at h with hz h0 h1 h2 h3 h4 h5 h6 hf h0 h5 <;> cases h
  · exact ⟨rfl, packR_of_fields hz h0 hop, layoutR_fieldsAt w⟩
  · exact ⟨rfl, packR_of_fields hz h1 hop, layoutR_fieldsAt w⟩
  · exact ⟨rfl, packR_of_fields hz h2 hop, layoutR_fieldsAt w⟩
  · exact ⟨rfl, packR_of_fields hz h3 hop, layoutR_fieldsAt w⟩
  · exact ⟨rfl, packR_of_fields hz h4 hop, layoutR_fieldsAt w⟩
  · exact ⟨rfl, packR_of_fields hz h5 hop, layoutR_fieldsAt w⟩
  · exact ⟨rfl, packR_of_fields hz h6 hop, layoutR_fieldsAt w⟩
  · exact ⟨rfl, packR_of_fields hz (funct3_seven _ h0 h1 h2 h3 h4 h5 h6) hop, layoutR_fieldsAt w⟩
  · exact ⟨rfl, packR_of_fields hf h0 hop, layoutR_fieldsAt w⟩
  · exact ⟨rfl, packR_of_fields hf h5 hop, layoutR_fieldsAt w⟩

theorem reads_of_decodeFence (hop : opcodeOf w = 0b0001111#7) (h : decodeFence w = .instr i) : Reads w i := by
  unfold decodeFence at h
  split_ifs at h <;> cases h <;>
    exact ⟨rfl, packI_of_fields ‹_› hop, layoutI_fieldsAt w⟩

/-- R67: decode of a word loses nothing of it. -/
theorem reads_of_decode (h : decode w = .instr i) : Reads w i := by
  unfold decode at h
  split_ifs at h with hop hop hop hop hop hop hop hop hop hop
  · cases h; exact ⟨immUOk_immUOf w, packU_of_fields hop, rdAt_rdOf w, immUAt_immUOf w⟩
  · cases h; exact ⟨immUOk_immUOf w, packU_of_fields hop, rdAt_rdOf w, immUAt_immUOf w⟩
  · cases h; exact ⟨immJOk_immJOf w, packJ_of_fields hop, rdAt_rdOf w, immJAt_immJOf w⟩
  · exact reads_of_decodeJalr hop h
  · exact reads_of_decodeBranch hop h
  · exact reads_of_decodeLoad hop h
  · exact reads_of_decodeStore hop h
  · exact reads_of_decodeRegImm hop h
  · exact reads_of_decodeRegReg hop h
  · exact reads_of_decodeFence hop h
end

/-! ### From a row of the table to the instruction (R68 to R76) -/

open Laws.RowOfWord in
/-- The per-instruction law for every instruction. -/
theorem rowOfWord (i : Instr) : Statement i := by
  cases i
  exacts [lui .., auipc .., jal .., jalr .., beq .., bne .., blt .., bge .., bltu .., bgeu .., lb .., lh .., lw .., lbu ..,
    lhu .., sb .., sh .., sw .., addi .., slti .., sltiu .., xori .., ori .., andi .., slli .., srli .., srai .., add ..,
    sub .., sll .., slt .., sltu .., xor .., srl .., sra .., or .., and .., fence .., fenceI ..]

section
variable {w : InstrWord} {row : OpcodeRow}

/-- Where the mask covers a field, a word that matches the row has the row's value in that field. -/
theorem extract_of_matchesWord {lo n : Nat} (h : row.matchesWord w = true)
    (hmask : row.mask.extractLsb' lo n = BitVec.allOnes n) : w.extractLsb' lo n = row.pattern.extractLsb' lo n := by
  have hw : w &&& row.mask = row.pattern := eq_of_beq h
  rw [← hw, BitVec.extractLsb'_and, hmask, BitVec.and_allOnes]

/-- For a group of rows whose masks all cover the opcode and `funct3`: every group but the first. -/
theorem opcode_funct3_of_matchesWord {rows : List OpcodeRow} (h : row.matchesWord w = true) (hrow : row ∈ rows)
    (hmask : ∀ r ∈ rows, opcodeOf r.mask = BitVec.allOnes 7 ∧ funct3Of r.mask = BitVec.allOnes 3) :
    opcodeOf w = opcodeOf row.pattern ∧ funct3Of w = funct3Of row.pattern :=
  ⟨extract_of_matchesWord h (hmask row hrow).1, extract_of_matchesWord h (hmask row hrow).2⟩

/-- The word decodes to an instruction of that mnemonic. -/
def DecodesTo (w : InstrWord) (mnemonic : String) : Prop := ∃ i : Instr, decode w = .instr i ∧ i.mnemonic = mnemonic

theorem decodesTo_of_upperAndJumps (hrow : row ∈ tableUpperAndJumps) (h : row.matchesWord w = true) :
    DecodesTo w row.mnemonic := by
  have hmask : ∀ r ∈ tableUpperAndJumps, opcodeOf r.mask = BitVec.allOnes 7 := by decide
  have hop : opcodeOf w = opcodeOf row.pattern := extract_of_matchesWord h (hmask row hrow)
  have h3 : funct3Of row.mask = BitVec.allOnes 3 → funct3Of w = funct3Of row.pattern := extract_of_matchesWord h
  simp only [DecodesTo, decode, hop]
  clear hop h
  fin_cases hrow
  · exact ⟨_, rfl, rfl⟩
  · exact ⟨_, rfl, rfl⟩
  · exact ⟨_, rfl, rfl⟩
  · simp only [decodeJalr, h3 rfl]; exact ⟨_, rfl, rfl⟩

/-- The groups whose rows differ in `funct3` alone. -/
theorem decodesTo_of_funct3Row (hrow : row ∈ tableBranches ++ tableLoads ++ tableStores ++ tableFences)
    (h : row.matchesWord w = true) : DecodesTo w row.mnemonic := by
  obtain ⟨hop, h3⟩ := opcode_funct3_of_matchesWord h hrow (by decide)
  simp only [DecodesTo, decode, hop, decodeBranch, decodeLoad, decodeStore, decodeFence, h3]
  clear hop h3 h
  fin_cases hrow <;> exact ⟨_, rfl, rfl⟩

theorem decodesTo_of_regImm (hrow : row ∈ tableRegImm) (h : row.matchesWord w = true) : DecodesTo w row.mnemonic := by
  obtain ⟨hop, h3⟩ := opcode_funct3_of_matchesWord h hrow (by decide)
  have h6 : funct6Of row.mask = BitVec.allOnes 6 → funct6Of w = funct6Of row.pattern := extract_of_matchesWord h
  simp only [DecodesTo, decode, hop, decodeRegImm, h3]
  clear hop h3 h
  fin_cases hrow
  · exact ⟨_, rfl, rfl⟩
  · exact ⟨_, rfl, rfl⟩
  · exact ⟨_, rfl, rfl⟩
  · exact ⟨_, rfl, rfl⟩
  · exact ⟨_, rfl, rfl⟩
  · exact ⟨_, rfl, rfl⟩
  · simp only [h6 rfl]; exact ⟨_, rfl, rfl⟩
  · simp only [h6 rfl]; exact ⟨_, rfl, rfl⟩
  · simp only [h6 rfl]; exact ⟨_, rfl, rfl⟩

theorem decodesTo_of_regReg (hrow : row ∈ tableRegReg) (h : row.matchesWord w = true) : DecodesTo w row.mnemonic := by
  have hmask : ∀ r ∈ tableRegReg, funct7Of r.mask = BitVec.allOnes 7 := by decide
  have h7 : funct7Of w = funct7Of row.pattern := extract_of_matchesWord h (hmask row hrow)
  obtain ⟨hop, h3⟩ := opcode_funct3_of_matchesWord h hrow (by decide)
  simp only [DecodesTo, decode, hop, decodeRegReg, h3, h7]
  clear hop h3 h7 h
  fin_cases hrow <;> exact ⟨_, rfl, rfl⟩

theorem decodesTo_of_matchesWord (hrow : row ∈ opcodeTable) (h : row.matchesWord w = true) : DecodesTo w row.mnemonic := by
  have hgroup : row ∈ tableUpperAndJumps ∨ row ∈ tableBranches ++ tableLoads ++ tableStores ++ tableFences ∨
      row ∈ tableRegImm ∨ row ∈ tableRegReg := by
    simp only [opcodeTable, List.mem_append] at hrow ⊢; tauto
  obtain hrow | hrow | hrow | hrow := hgroup
  · exact decodesTo_of_upperAndJumps hrow h
  · exact decodesTo_of_funct3Row hrow h
  · exact decodesTo_of_regImm hrow h
  · exact decodesTo_of_regReg hrow h

end

/-- A decoded word matches the row of its instruction: it is the instruction's word. -/
theorem matchesWord_of_decode {w : InstrWord} {i : Instr} (h : decode w = .instr i) :
    ∃ row ∈ opcodeTable, row.matchesWord w = true ∧ row.mnemonic = i.mnemonic := by
  obtain ⟨row, hrow, hname, hmatch⟩ := rowOfWord i
  rw [(reads_of_decode h).encodes] at hmatch
  exact ⟨row, hrow, hmatch, hname⟩

/-- R78: "no decode" is what is left when no row matches. -/
theorem no_row_iff_reject (w : InstrWord) :
    (∀ row ∈ opcodeTable, row.matchesWord w = false) ↔ ∃ r, decode w = .reject r := by
  constructor
  · intro hnone
    cases hd : decode w with
    | reject r => exact ⟨r, rfl⟩
    | instr i =>
      obtain ⟨row, hrow, hmatch, _⟩ := matchesWord_of_decode hd
      cases hmatch.symm.trans (hnone row hrow)
  · rintro ⟨r, hr⟩ row hrow
    by_contra hmatch
    obtain ⟨i, hi, _⟩ := decodesTo_of_matchesWord hrow (Bool.eq_true_of_not_eq_false hmatch)
    cases hr.symm.trans hi

/-! ### The statements -/

/-- Settles O3: a decoded instruction keeps its whole word, so the word matches the instruction's row; a row fixes the
fields that decode dispatches on; and the two together leave no decode for the words of no row, which the step reports. -/
theorem decodeFollowsTheOpcodeTable : Obligations.DecodeFollowsTheOpcodeTable := by
  unfold Obligations.DecodeFollowsTheOpcodeTable
  refine ⟨fun w i h => ⟨matchesWord_of_decode h, (reads_of_decode h).fields⟩, fun w row => decodesTo_of_matchesWord,
    no_row_iff_reject, ?_⟩
  intro s hf hb hnone
  obtain ⟨r, hr⟩ := (no_row_iff_reject _).mp hnone
  rw [step_eq_runWord_le32 hf hb, runWord_reject hr]; rfl

/-- Settles O5: decode reads the immediate at its places, and from the word of a JAL it reads the JAL's own immediate. -/
theorem jumpImmediateKeepsAllTwentyBits : Obligations.JumpImmediateKeepsAllTwentyBits := by
  unfold Obligations.JumpImmediateKeepsAllTwentyBits
  constructor
  · intro w rd m h
    obtain ⟨_, hm⟩ := (reads_of_decode h).fields
    exact hm
  · intro rd m h0
    have hread := immJAt_immJOf (packJ m rd 0b1101111#7)
    rwa [immJOf_packJ m rd _ h0] at hread

end Sys2Proof.Proofs.Encoding
end

section
/-! Register-immediate and upper-immediate instructions (spec/40_int_imm.md R100 to R113). -/

namespace Sys2Proof.Proofs.IntImm

open Machine Claims StateRules

/-! ### Shift amounts (R101, R121) -/

theorem shiftAmount_lt_xlen (s : State) (a : Word) : s.shiftAmount a < s.xlen := by
  unfold State.xlen
  cases hw : s.w32 with
  | true => rw [shiftAmount_narrow hw]; exact Nat.mod_lt _ (by decide)
  | false => rw [shiftAmount_native hw]; exact Nat.mod_lt _ (by decide)

theorem shamtImm_narrow {s : State} (hw : s.w32 = true) (m : BitVec 6) : s.shamtImm m = m.toNat % 32 := by
  unfold State.shamtImm
  rw [shiftAmount_narrow hw, BitVec.toNat_setWidth_of_le (by decide)]

/-- A 6-bit field is below 64 already, so native mode takes all of it. -/
theorem shamtImm_native {s : State} (hw : s.w32 = false) (m : BitVec 6) : s.shamtImm m = m.toNat := by
  unfold State.shamtImm
  rw [shiftAmount_native hw, BitVec.toNat_setWidth_of_le (by decide)]
  exact Nat.mod_eq_of_lt m.isLt

theorem shamtReg_narrow {s : State} (hw : s.w32 = true) (i : RegIdx) : s.shamtReg i = (reg32 s i).toNat % 32 := by
  unfold State.shamtReg reg32
  rw [shiftAmount_narrow hw, x_eq_low32 hw, low32_toNat, BitVec.toNat_setWidth]

theorem shamtReg_native {s : State} (hw : s.w32 = false) (i : RegIdx) : s.shamtReg i = (reg64 s i).toNat % 64 := by
  unfold State.shamtReg reg64
  rw [shiftAmount_native hw, x_eq_cell hw]

/-- Settles O15: `a & (XLEN - 1)` is `a` modulo `XLEN` at each width, hence below `XLEN`. -/
theorem shiftAmountIsBelowTheWidth : Obligations.ShiftAmountIsBelowTheWidth := by
  unfold Obligations.ShiftAmountIsBelowTheWidth
  intro s shamt rs2
  refine ⟨?_, ?_, shiftAmount_lt_xlen s _, shiftAmount_lt_xlen s _⟩
  · cases hw : s.w32 with
    | true => exact shamtImm_narrow hw shamt
    | false => exact shamtImm_native hw shamt
  · cases hw : s.w32 with
    | true => exact shamtReg_narrow hw rs2
    | false => exact shamtReg_native hw rs2

/-! ### The contract of R100 -/

theorem byWidth_of_widths {s : State} {r : Word} {v32 : BitVec 32} {v64 : BitVec 64}
    (h32 : s.w32 = true → r.setWidth 32 = v32) (h64 : s.w32 = false → r = v64) :
    byWidth s (r.setWidth 32) r = byWidth s v32 v64 := by
  unfold byWidth
  cases hw : s.w32 with
  | true => rw [h32 hw]; rfl
  | false => rw [h64 hw]; rfl

theorem trunc_add4_eq_nextPc (s : State) : s.trunc (s.pc + 4) = nextPc s := by
  rw [trunc_eq_byWidth, setWidth32_add]; rfl

/-- An instruction that ends in `complete` meets the contract, at the values its result has at each width: the frame is
that of the register write, because the pc write touches no other field. -/
theorem writesReg_of_complete {i : Instr} {rd : RegIdx} {r : State → Word} {v32 : State → BitVec 32}
    {v64 : State → BitVec 64} (hexec : ∀ s, exec i s = s.complete rd (r s))
    (h32 : ∀ s : State, s.w32 = true → (r s).setWidth 32 = v32 s)
    (h64 : ∀ s : State, s.w32 = false → r s = v64 s) : WritesReg i rd v32 v64 := by
  intro s
  refine ⟨(s.writeReg rd (r s)).writePc (s.pc + 4), by rw [hexec, complete_eq], ?_, ?_,
    regsSameBut_writeReg s rd (r s), restSame_writeReg s rd (r s), memSame_writeReg s rd (r s)⟩
  · rw [writePc_readCell, readCell_writeReg_self, byWidth_of_widths (h32 s) (h64 s)]
  · rw [writePc_pc, writeReg_trunc, trunc_add4_eq_nextPc]

/-! ### The discriminator fields of the words (R74) -/

theorem encoded_packI {i : Instr} {m : BitVec 12} {rs1 rd : RegIdx} {f3 : BitVec 3} {op : BitVec 7}
    (h : encodeWord i = packI m rs1 f3 rd op) : Encoded i op f3 := by
  unfold Encoded
  rw [h]
  exact ⟨opcodeOf_packI m rs1 f3 rd op, funct3Of_packI m rs1 f3 rd op⟩

theorem encodedShift_packShift {i : Instr} {f6 m : BitVec 6} {rs1 rd : RegIdx} {f3 : BitVec 3} {op : BitVec 7}
    (h : encodeWord i = packShift f6 m rs1 f3 rd op) : EncodedShift i op f3 f6 := by
  unfold EncodedShift Encoded
  rw [h]
  exact ⟨⟨opcodeOf_packShift f6 m rs1 f3 rd op, funct3Of_packShift f6 m rs1 f3 rd op⟩,
    funct6Of_packShift f6 m rs1 f3 rd op⟩

/-! ### Results at each width

The operands in the words of the statements, and what an operation on them leaves in the low half. -/

theorem setWidth_x_eq_reg32 (s : State) (i : RegIdx) : (s.x i).setWidth 32 = reg32 s i := setWidth_x s i

theorem x_eq_reg64 {s : State} (hw : s.w32 = false) (i : RegIdx) : s.x i = reg64 s i := x_eq_cell hw i

theorem condLtImm_native {s : State} (hw : s.w32 = false) (i : RegIdx) (m : BitVec 12) :
    s.condLtImm i m = (reg64 s i).slt (m.signExtend 64) := by
  unfold State.condLtImm
  rw [sx_eq_cell hw, sext_eq_signExtend m (by decide) (by decide)]; rfl

theorem condLtuImm_native {s : State} (hw : s.w32 = false) (i : RegIdx) (m : BitVec 12) :
    s.condLtuImm i m = (reg64 s i).ult (m.signExtend 64) := by
  unfold State.condLtuImm
  rw [x_eq_reg64 hw, immI_native hw]

theorem setWidth_boolWord (b : Bool) : (boolWord b).setWidth 32 = bit32 b := by cases b <;> rfl

theorem boolWord_eq_bit64 (b : Bool) : boolWord b = bit64 b := rfl

theorem setWidth_x_shiftLeft {s : State} (hw : s.w32 = true) (i : RegIdx) (n : Nat) :
    (s.x i <<< n).setWidth 32 = reg32 s i <<< n := by
  rw [x_eq_low32 hw, setWidth32_shiftLeft]; rfl

theorem setWidth_x_ushiftRight {s : State} (hw : s.w32 = true) (i : RegIdx) (n : Nat) :
    (s.x i >>> n).setWidth 32 = reg32 s i >>> n := by
  rw [x_eq_low32 hw, setWidth32_ushiftRight]; rfl

/-- The signed read carries bit 31 above the low half, so a shift below 32 brings copies of it down (R110). -/
theorem setWidth_sx_sshiftRight {s : State} (hw : s.w32 = true) (i : RegIdx) {n : Nat} (hn : n < 32) :
    ((s.sx i).sshiftRight n).setWidth 32 = (reg32 s i).sshiftRight n := by
  rw [sx_eq_signExtend hw, setWidth32_sshiftRight _ n hn]; rfl

/-! ### The statements -/

/-- Settles O21: the sum of the operands; taking the low half commutes with it. -/
theorem addiAddsWrapping : Obligations.AddiAddsWrapping := by
  unfold Obligations.AddiAddsWrapping
  intro rd rs1 m
  refine ⟨encoded_packI rfl, writesReg_of_complete (fun _ => rfl) (fun s _ => ?_) (fun s hw => ?_)⟩
  · rw [setWidth32_add, setWidth_x_eq_reg32, setWidth_immI]
  · rw [x_eq_reg64 hw, immI_native hw]

/-- Settles O22: each comparison of the model is the comparison of the vectors at the effective width. -/
theorem sltiAndSltiuCompare : Obligations.SltiAndSltiuCompare := by
  unfold Obligations.SltiAndSltiuCompare
  intro rd rs1 m
  refine ⟨encoded_packI rfl, encoded_packI rfl,
    writesReg_of_complete (fun _ => rfl) (fun s hw => ?_) (fun s hw => ?_),
    writesReg_of_complete (fun _ => rfl) (fun s hw => ?_) (fun s hw => ?_)⟩
  · rw [setWidth_boolWord, condLtImm_narrow hw]; rfl
  · rw [boolWord_eq_bit64, condLtImm_native hw]
  · rw [setWidth_boolWord, condLtuImm_narrow hw]; rfl
  · rw [boolWord_eq_bit64, condLtuImm_native hw]

/-- Settles O23: the operations act bit by bit, so they commute with taking the low half. -/
theorem bitwiseImmediatesSignExtend : Obligations.BitwiseImmediatesSignExtend := by
  unfold Obligations.BitwiseImmediatesSignExtend
  intro rd rs1 m
  refine ⟨encoded_packI rfl, encoded_packI rfl, encoded_packI rfl,
    writesReg_of_complete (fun _ => rfl) (fun s _ => ?_) (fun s hw => ?_),
    writesReg_of_complete (fun _ => rfl) (fun s _ => ?_) (fun s hw => ?_),
    writesReg_of_complete (fun _ => rfl) (fun s _ => ?_) (fun s hw => ?_)⟩
  · rw [setWidth32_xor, setWidth_x_eq_reg32, setWidth_immI]
  · rw [x_eq_reg64 hw, immI_native hw]
  · rw [setWidth32_or, setWidth_x_eq_reg32, setWidth_immI]
  · rw [x_eq_reg64 hw, immI_native hw]
  · rw [setWidth32_and, setWidth_x_eq_reg32, setWidth_immI]
  · rw [x_eq_reg64 hw, immI_native hw]

/-- Settles O24: in 32-bit mode the left shift and the logical right shift of the zero-extended low half, and the arithmetic
right shift of its sign extension, have the 32-bit shift as their low half. -/
theorem shiftImmediatesShiftModuloTheWidth : Obligations.ShiftImmediatesShiftModuloTheWidth := by
  unfold Obligations.ShiftImmediatesShiftModuloTheWidth
  intro rd rs1 m
  refine ⟨encodedShift_packShift rfl, encodedShift_packShift rfl, encodedShift_packShift rfl,
    writesReg_of_complete (fun _ => rfl) (fun s hw => ?_) (fun s hw => ?_),
    writesReg_of_complete (fun _ => rfl) (fun s hw => ?_) (fun s hw => ?_),
    writesReg_of_complete (fun _ => rfl) (fun s hw => ?_) (fun s hw => ?_)⟩
  · rw [setWidth_x_shiftLeft hw, shamtImm_narrow hw]
  · rw [x_eq_reg64 hw, shamtImm_native hw]
  · rw [setWidth_x_ushiftRight hw, shamtImm_narrow hw]
  · rw [x_eq_reg64 hw, shamtImm_native hw]
  · rw [shamtImm_narrow hw, setWidth_sx_sshiftRight hw _ (Nat.mod_lt _ (by decide))]
  · rw [sx_eq_cell hw, shamtImm_native hw]; rfl

/-- Settles O25: `sext_32` keeps the low half, and both addends of AUIPC are taken from the state before the instruction. -/
theorem upperImmediatesExtendFromBit31 : Obligations.UpperImmediatesExtendFromBit31 := by
  unfold Obligations.UpperImmediatesExtendFromBit31
  intro rd m
  refine ⟨opcodeOf_packU m rd _, opcodeOf_packU m rd _,
    writesReg_of_complete (fun _ => rfl) (fun s _ => setWidth_immU s m) (fun s hw => immU_native hw m),
    writesReg_of_complete (fun _ => rfl) (fun s _ => ?_) (fun s hw => ?_)⟩
  · rw [setWidth32_add, setWidth_pcX, setWidth_immU]; rfl
  · rw [pcX_native hw, immU_native hw]; rfl

end Sys2Proof.Proofs.IntImm
end

section
/-! Register-register instructions (spec/41_int_reg.md R120 to R131). -/

namespace Sys2Proof.Proofs.IntReg

open Machine Claims StateRules IntImm

/-! ### The discriminator fields of the words (R74) -/

theorem encodedR_packR {i : Instr} {f7 : BitVec 7} {rs2 rs1 rd : RegIdx} {f3 : BitVec 3} {op : BitVec 7}
    (h : encodeWord i = packR f7 rs2 rs1 f3 rd op) : EncodedR i op f3 f7 := by
  unfold EncodedR Encoded
  rw [h]
  exact ⟨⟨opcodeOf_packR f7 rs2 rs1 f3 rd op, funct3Of_packR f7 rs2 rs1 f3 rd op⟩, funct7Of_packR f7 rs2 rs1 f3 rd op⟩

/-! ### The contract of R100 for the shapes of the group -/

section
variable {i : Instr} {rd rs1 rs2 : RegIdx}

/-- An operation on the two registers whose low half depends on their low halves alone (R122, R123, R127, R130, R131). -/
theorem writesReg_of_lowHalf (op32 : BitVec 32 → BitVec 32 → BitVec 32) (op64 : Word → Word → Word)
    (hexec : ∀ s, exec i s = s.complete rd (op64 (s.x rs1) (s.x rs2)))
    (hlow : ∀ a b, (op64 a b).setWidth 32 = op32 (a.setWidth 32) (b.setWidth 32)) :
    WritesReg i rd (fun s => op32 (reg32 s rs1) (reg32 s rs2)) (fun s => op64 (reg64 s rs1) (reg64 s rs2)) :=
  writesReg_of_complete hexec
    (fun s _ => by rw [hlow, setWidth_x_eq_reg32, setWidth_x_eq_reg32])
    (fun s hw => by rw [x_eq_reg64 hw, x_eq_reg64 hw])

/-- A comparison that the model decides as the vectors at the effective width do (R125, R126). -/
theorem writesReg_of_comparison {c c32 c64 : State → Bool} (hexec : ∀ s, exec i s = s.complete rd (boolWord (c s)))
    (h32 : ∀ s : State, s.w32 = true → c s = c32 s) (h64 : ∀ s : State, s.w32 = false → c s = c64 s) :
    WritesReg i rd (fun s => bit32 (c32 s)) (fun s => bit64 (c64 s)) :=
  writesReg_of_complete hexec
    (fun s hw => by rw [setWidth_boolWord, h32 s hw])
    (fun s hw => by rw [boolWord_eq_bit64, h64 s hw])

end

/-! ### The statements -/

/-- Settles O26: sum and difference modulo 2^32 depend on the low halves alone. -/
theorem addAndSubWrap : Obligations.AddAndSubWrap := by
  unfold Obligations.AddAndSubWrap
  intro rd rs1 rs2
  exact ⟨encodedR_packR rfl, encodedR_packR rfl,
    writesReg_of_lowHalf (· + ·) (· + ·) (fun _ => rfl) setWidth32_add,
    writesReg_of_lowHalf (· - ·) (· - ·) (fun _ => rfl) setWidth32_sub⟩

/-- Settles O27: the amount is `x[rs2]` modulo `XLEN`, and each shift of the operand as it is read (zero-extended, and
sign-extended for SRA) has the 32-bit shift as its low half. -/
theorem registerShiftsShiftModuloTheWidth : Obligations.RegisterShiftsShiftModuloTheWidth := by
  unfold Obligations.RegisterShiftsShiftModuloTheWidth
  intro rd rs1 rs2
  refine ⟨encodedR_packR rfl, encodedR_packR rfl, encodedR_packR rfl,
    writesReg_of_complete (fun _ => rfl) (fun s hw => ?_) (fun s hw => ?_),
    writesReg_of_complete (fun _ => rfl) (fun s hw => ?_) (fun s hw => ?_),
    writesReg_of_complete (fun _ => rfl) (fun s hw => ?_) (fun s hw => ?_)⟩
  · rw [setWidth_x_shiftLeft hw, shamtReg_narrow hw]
  · rw [x_eq_reg64 hw, shamtReg_native hw]
  · rw [setWidth_x_ushiftRight hw, shamtReg_narrow hw]
  · rw [x_eq_reg64 hw, shamtReg_native hw]
  · rw [shamtReg_narrow hw, setWidth_sx_sshiftRight hw _ (Nat.mod_lt _ (by decide))]
  · rw [sx_eq_cell hw, shamtReg_native hw]; rfl

/-- Settles O28: extending both operands alike keeps their order, so the model's comparison is the one at the effective
width. -/
theorem sltAndSltuCompare : Obligations.SltAndSltuCompare := by
  unfold Obligations.SltAndSltuCompare
  intro rd rs1 rs2
  exact ⟨encodedR_packR rfl, encodedR_packR rfl,
    writesReg_of_comparison (fun _ => rfl) (fun _ hw => condLt_narrow hw rs1 rs2) (fun _ hw => condLt_native hw rs1 rs2),
    writesReg_of_comparison (fun _ => rfl) (fun _ hw => condLtu_narrow hw rs1 rs2) (fun _ hw => condLtu_native hw rs1 rs2)⟩

/-- Settles O29: the operations act bit by bit, so the low half of the result depends on the low halves alone. -/
theorem bitwiseRegisterOperations : Obligations.BitwiseRegisterOperations := by
  unfold Obligations.BitwiseRegisterOperations
  intro rd rs1 rs2
  exact ⟨encodedR_packR rfl, encodedR_packR rfl, encodedR_packR rfl,
    writesReg_of_lowHalf (· ^^^ ·) (· ^^^ ·) (fun _ => rfl) setWidth32_xor,
    writesReg_of_lowHalf (· ||| ·) (· ||| ·) (fun _ => rfl) setWidth32_or,
    writesReg_of_lowHalf (· &&& ·) (· &&& ·) (fun _ => rfl) setWidth32_and⟩

end Sys2Proof.Proofs.IntReg
end

section
/-! Control transfer (spec/42_control.md R140 to R149). -/

namespace Sys2Proof.Proofs.Control

open Machine Claims StateRules IntImm

/-! ### The pc after a jump or a branch (R140, R143) -/

/-- The return address as a register holds it. -/
theorem link_byWidth_eq_nextPc (s : State) : byWidth s (s.link.setWidth 32) s.link = nextPc s :=
  byWidth_of_widths
    (fun _ => by unfold State.link; rw [setWidth32_add, setWidth_pcX]; rfl)
    (fun hw => by unfold State.link; rw [pcX_native hw]; rfl)

/-- A target relative to the instruction's own address is the sum at the effective width. -/
theorem trunc_pc_add_sext {n : Nat} (s : State) (m : BitVec n) (hpos : 0 < n) (hle : n ≤ 64) :
    s.trunc (s.pc + sext m) = byWidth s (pc32 s + m.signExtend 32) (pc64 s + m.signExtend 64) := by
  rw [trunc_eq_byWidth, setWidth32_add, setWidth_sext m hpos hle, sext_eq_signExtend m hpos hle]; rfl

/-- The target of JALR at each width: clearing bit 0 commutes with taking the low half (R142). -/
theorem trunc_jalrTarget (s : State) (rs1 : RegIdx) (m : BitVec 12) :
    s.trunc (s.jalrTarget rs1 m) =
      byWidth s ((reg32 s rs1 + m.signExtend 32) &&& ~~~1#32) ((reg64 s rs1 + m.signExtend 64) &&& ~~~1#64) := by
  rw [trunc_eq_byWidth]
  refine byWidth_of_widths (fun _ => ?_) (fun hw => ?_)
  · unfold State.jalrTarget
    rw [setWidth32_and, setWidth32_add, setWidth_x_eq_reg32, setWidth_immI]; rfl
  · unfold State.jalrTarget
    rw [x_eq_reg64 hw, immI_native hw]; rfl

/-- The link write does not touch the pc, so the offset is added to the address of the JAL itself (R141). -/
theorem execJal_eq (rd : RegIdx) (m : BitVec 21) (s : State) :
    execJal rd m s = .next ((s.writeReg rd s.link).writePc (s.pc + offsetJ m)) := by
  unfold execJal
  rw [offsetPc_eq, writeReg_pc]

/-! ### The two shapes of a control transfer -/

/-- An instruction that links and then writes the pc: the link is the old `pc + 4`, whatever the target, and the frame is
that of the register write. -/
theorem links_of_exec {i : Instr} {rd : RegIdx} {s : State} {target p : Word}
    (hexec : exec i s = .next ((s.writeReg rd s.link).writePc target)) (htarget : s.trunc target = p) :
    ∃ t : State, exec i s = .next t ∧ t.readCell rd = (if rd = 0 then 0 else nextPc s) ∧ t.pc = p ∧
      RegsSameBut rd s t ∧ RestSame s t ∧ MemSame s t := by
  refine ⟨_, hexec, ?_, ?_, regsSameBut_writeReg s rd s.link, restSame_writeReg s rd s.link, memSame_writeReg s rd s.link⟩
  · rw [writePc_readCell, readCell_writeReg_self, link_byWidth_eq_nextPc]
  · rw [writePc_pc, writeReg_trunc, htarget]

/-- An instruction that is the common `branch` meets R143 for the condition as its comparison reads at each width. -/
theorem branchRule_of_branch {i : Instr} {m : BitVec 13} {c c32 c64 : State → Bool}
    (hexec : ∀ s, exec i s = s.branch (c s) m)
    (h32 : ∀ s : State, s.w32 = true → c s = c32 s) (h64 : ∀ s : State, s.w32 = false → c s = c64 s) :
    BranchRule i m c32 c64 := by
  intro s
  have hcond : (if s.w32 then c32 s else c64 s) = c s := by
    cases hw : s.w32 with
    | true => exact (h32 s hw).symm
    | false => exact (h64 s hw).symm
  refine ⟨_, (hexec s).trans (branch_eq s (c s) m), ?_, fun _ => rfl, ⟨rfl, rfl, rfl, rfl, rfl⟩, rfl, fun _ => rfl⟩
  rw [writePc_pc, hcond]
  cases c s with
  | true => exact trunc_pc_add_sext s m (by decide) (by decide)
  | false => exact trunc_add4_eq_nextPc s

/-! ### The discriminator fields of the words (R74) -/

theorem encoded_packB {i : Instr} {m : BitVec 13} {rs2 rs1 : RegIdx} {f3 : BitVec 3} {op : BitVec 7}
    (h : encodeWord i = packB m rs2 rs1 f3 op) : Encoded i op f3 := by
  unfold Encoded
  rw [h]
  exact ⟨opcodeOf_packB m rs2 rs1 f3 op, funct3Of_packB m rs2 rs1 f3 op⟩

/-! ### The statements -/

/-- Settles O31: JAL links and jumps to the sum of its own address and the offset, which wraps at each width. -/
theorem jalLinksAndJumpsRelative : Obligations.JalLinksAndJumpsRelative := by
  unfold Obligations.JalLinksAndJumpsRelative
  intro rd m
  exact ⟨opcodeOf_packJ m rd _, fun s =>
    links_of_exec (execJal_eq rd m s) (trunc_pc_add_sext s m (by decide) (by decide))⟩

/-- Settles O32: the target is computed from the state before the link is written, so `rd` = `rs1` is no special case. -/
theorem jalrLinksAndJumpsAbsolute : Obligations.JalrLinksAndJumpsAbsolute := by
  unfold Obligations.JalrLinksAndJumpsAbsolute
  intro rd rs1 m
  exact ⟨encoded_packI rfl, fun s => links_of_exec rfl (trunc_jalrTarget s rs1 m)⟩

/-- Settles O33: registers as read are equal exactly when the vectors at the effective width are. -/
theorem equalityBranches : Obligations.EqualityBranches := by
  unfold Obligations.EqualityBranches
  intro rs1 rs2 m
  exact ⟨encoded_packB rfl, encoded_packB rfl,
    branchRule_of_branch (fun _ => rfl) (fun _ hw => condEq_narrow hw rs1 rs2) (fun _ hw => condEq_native hw rs1 rs2),
    branchRule_of_branch (fun _ => rfl) (fun _ hw => congrArg not (condEq_narrow hw rs1 rs2))
      (fun _ hw => congrArg not (condEq_native hw rs1 rs2))⟩

/-- Settles O34: extending both operands alike keeps their order, and BGE and BGEU branch on the negated comparison, which
is the reverse order with equality. -/
theorem orderingBranches : Obligations.OrderingBranches := by
  unfold Obligations.OrderingBranches
  intro rs1 rs2 m
  refine ⟨encoded_packB rfl, encoded_packB rfl, encoded_packB rfl, encoded_packB rfl,
    branchRule_of_branch (fun _ => rfl) (fun _ hw => condLt_narrow hw rs1 rs2) (fun _ hw => condLt_native hw rs1 rs2),
    branchRule_of_branch (fun _ => rfl) (fun s hw => ?_) (fun s hw => ?_),
    branchRule_of_branch (fun _ => rfl) (fun _ hw => condLtu_narrow hw rs1 rs2) (fun _ hw => condLtu_native hw rs1 rs2),
    branchRule_of_branch (fun _ => rfl) (fun s hw => ?_) (fun s hw => ?_)⟩
  · rw [BitVec.sle_eq_not_slt, condLt_narrow hw]; rfl
  · rw [BitVec.sle_eq_not_slt, condLt_native hw]; rfl
  · rw [BitVec.ule_eq_not_ult, condLtu_narrow hw]; rfl
  · rw [BitVec.ule_eq_not_ult, condLtu_native hw]; rfl

end Sys2Proof.Proofs.Control
end

section
/-! The fences and the SYSTEM opcode (spec/44_fence_system.md R180 to R183). -/

namespace Sys2Proof.Proofs.FenceSystem

open Machine Claims IntImm Encoding

/-! ### Words that no row of the table lists (R183, R78) -/

/-- The word has the SYSTEM opcode, or its low two bits are those of a compressed instruction. -/
def SystemOrCompressed (w : InstrWord) : Prop := w.extractLsb' 0 7 = 0x73#7 ∨ w.extractLsb' 0 2 ≠ 0b11#2

/-- Every row's mask covers the opcode, so a word of the row has the row's opcode, which ends in 11 and is not SYSTEM. -/
theorem not_systemOrCompressed_of_matchesWord {w : InstrWord} {row : OpcodeRow} (hrow : row ∈ opcodeTable)
    (h : row.matchesWord w = true) : ¬ SystemOrCompressed w := by
  have hmask : ∀ r ∈ opcodeTable,
      r.mask.extractLsb' 0 7 = BitVec.allOnes 7 ∧ r.mask.extractLsb' 0 2 = BitVec.allOnes 2 := by decide
  have hpattern : ∀ r ∈ opcodeTable, r.pattern.extractLsb' 0 7 ≠ 0x73#7 ∧ r.pattern.extractLsb' 0 2 = 0b11#2 := by decide
  obtain ⟨hmask7, hmask2⟩ := hmask row hrow
  obtain ⟨hsystem, hlow⟩ := hpattern row hrow
  rintro (h7 | h2)
  · exact hsystem ((extract_of_matchesWord h hmask7).symm.trans h7)
  · exact h2 ((extract_of_matchesWord h hmask2).trans hlow)

theorem no_row_of_systemOrCompressed {w : InstrWord} (hw : SystemOrCompressed w) :
    ∀ row ∈ opcodeTable, row.matchesWord w = false :=
  fun _ hrow => Bool.eq_false_of_not_eq_true fun h => not_systemOrCompressed_of_matchesWord hrow h hw

/-- Settles O6: no row of the opcode table lists such a word, and what the decoder and the engine do with a word of no row
is said by the table's own statement. -/
theorem systemAndCompressedWordsDoNotDecode : Obligations.SystemAndCompressedWordsDoNotDecode := by
  unfold Obligations.SystemAndCompressedWordsDoNotDecode
  obtain ⟨_, _, hreject, hengine⟩ := decodeFollowsTheOpcodeTable
  constructor
  · intro w hw
    exact (hreject w).mp (no_row_of_systemOrCompressed hw)
  · intro s hf hb hw
    exact hengine s hf hb (no_row_of_systemOrCompressed hw)

/-! ### The fences (R180 to R182) -/

/-- Advancing the pc is a write of `pc + 4` at the effective width, and of nothing else. -/
theorem advance_eq_nextPc (s : State) : s.advance = { s with pc := nextPc s } := by
  rw [advance_eq, State.writePc, trunc_add4_eq_nextPc]

/-- Settles O39: both fences are the advance of the pc alone, whatever their fields hold. -/
theorem fencesOnlyAdvanceThePc : Obligations.FencesOnlyAdvanceThePc := by
  unfold Obligations.FencesOnlyAdvanceThePc
  intro rd rs1 m
  exact ⟨encoded_packI rfl, encoded_packI rfl, fun s =>
    ⟨congrArg Host.Outcome.next (advance_eq_nextPc s), congrArg Host.Outcome.next (advance_eq_nextPc s)⟩⟩

end Sys2Proof.Proofs.FenceSystem
end

section
/-! The engine and its host interface (spec/45_engine.md R197 to R199, R202, R205). -/

namespace Sys2Proof.Proofs.Engine

open Machine Claims StateRules

/-! ### Host operations on a running core -/

theorem setPc_even (s : State) (a : Word) (h : a.getLsbD 0 = false) : s.setPc a = s.writePc a :=
  if_neg (ne_true_of_eq_false h)

theorem setPc_odd (s : State) (a : Word) (h : a.getLsbD 0 = true) : s.setPc a = s.raise (.pcAlign a) := if_pos h

theorem activateIsa_recognised (s : State) {name : String} {b : Bool} (h : Config.isaNameWidth name = some b) :
    s.activateIsa name = s.setWidthMode b := by
  unfold State.activateIsa; rw [h]

theorem activateIsa_unrecognised (s : State) {name : String} (h : Config.isaNameWidth name = none) :
    s.activateIsa name = s := by
  unfold State.activateIsa; rw [h]

theorem readSignExtended_eq (s : State) (i : RegIdx) :
    s.readSignExtended i = if s.w32 then (reg32 s i).signExtend 64 else reg64 s i := by
  unfold State.readSignExtended; rw [signExtendAt_31]; rfl

/-! ### No stage of a step reads the trace flag or the trace output (R202) -/

/-- The trace stage writes the output alone, so it differs between two flags by the output alone. -/
theorem emitTrace_withOutput (s : State) (i : Instr) (b : Bool) (l : List TraceLine) :
    ∃ l', (s.withOutput b l).emitTrace i = (s.emitTrace i).withOutput b l' := by
  unfold State.emitTrace
  cases b <;> cases s.trace <;> exact ⟨_, rfl⟩

theorem runWord_withOutput {w : InstrWord} {s t : State} (b : Bool) (l : List TraceLine) (h : runWord w s = .next t) :
    ∃ l', runWord w (s.withOutput b l) = .next (t.withOutput b l') := by
  cases hd : decode w with
  | instr i =>
    rw [runWord_instr hd] at h
    obtain ⟨l', hl⟩ := emitTrace_withOutput s i b l
    exact ⟨l', by rw [runWord_instr hd, hl, exec_withOutput i _ t b l' h]⟩
  | reject r =>
    rw [runWord_reject hd] at h
    cases h; exact ⟨l, runWord_reject hd _⟩

/-- Latch, fetch and what follows the fetch each go the same way whatever the flag and the output are. -/
theorem step_withOutput {s t : State} (b : Bool) (l : List TraceLine) (h : step s = .next t) :
    ∃ l', step (s.withOutput b l) = .next (t.withOutput b l') := by
  cases hf : s.fault with
  | some f =>
    rw [step_latched s f hf] at h
    cases h; exact ⟨l, step_latched _ f hf⟩
  | none =>
    rcases Nat.lt_or_ge s.code.len (s.pcX.toNat + 4) with hb | hb
    · rw [step_fetch_fault s hf hb] at h
      cases h; exact ⟨l, step_fetch_fault (s.withOutput b l) hf hb⟩
    · rw [step_fetched s hf hb] at h
      obtain ⟨l', hl⟩ := runWord_withOutput b l h
      exact ⟨l', (step_fetched (s.withOutput b l) hf hb).trans hl⟩

/-! ### The statements -/

/-- Settles O54: the buffer that `load_code` makes of the bytes has their number and reads back each of them, and it is the
only field written. -/
theorem loadCodeReplacesTheCodeBuffer : Obligations.LoadCodeReplacesTheCodeBuffer := by
  unfold Obligations.LoadCodeReplacesTheCodeBuffer
  intro s bytes hf
  exact ⟨s.loadCode bytes, perform_running _ s hf, rfl, ofBytes_byteAt bytes, rfl⟩

/-- Settles O56: the reads are the cell at the effective width, and each write of the host is the primitive of the register
file, whose result and frame are stated of the primitive. -/
theorem hostRegisterAndPcAccess : Obligations.HostRegisterAndPcAccess := by
  unfold Obligations.HostRegisterAndPcAccess
  intro s i v
  refine ⟨rfl, readSignExtended_eq s i, fun hf => ⟨⟨s.writeReg i v, perform_running _ s hf, readCell_writeReg_self s i v,
    regsSameBut_writeReg s i v, writeReg_pc s i v, restSame_writeReg s i v, memSame_writeReg s i v⟩, ?_, ?_, ?_, ?_, ?_⟩⟩
  · rw [perform_running _ s hf, performRunning, writeReg_zero]
  · rw [perform_running _ s hf, performRunning, writePc_eq_byWidth]
  · rw [perform_running _ s hf, performRunning, offsetPc_eq_byWidth]
  · intro heven
    rw [perform_running _ s hf, performRunning, incrementPc_even s v heven, offsetPc_eq_byWidth]
  · intro hodd
    rw [perform_running _ s hf, performRunning, incrementPc_odd s v hodd, State.raise]

/-- Settles O57: setting the flag writes that field, and a step of the state with another flag is the same step but for the
flag and the output, since no stage reads them. -/
theorem traceFlagChangesOnlyTheLines : Obligations.TraceFlagChangesOnlyTheLines := by
  unfold Obligations.TraceFlagChangesOnlyTheLines
  constructor
  · intro s b hf
    rw [perform_running _ s hf, performRunning, State.setTrace]
  · intro s t b h
    obtain ⟨l, hl⟩ := step_withOutput b s.sink h
    exact ⟨t.withOutput b l, hl, rfl, rfl⟩

/-- Settles O55: `set_pc` decides on bit 0 of the address between `write_pc` and the fault. -/
theorem setPcRequiresAnEvenAddress : Obligations.SetPcRequiresAnEvenAddress := by
  unfold Obligations.SetPcRequiresAnEvenAddress
  intro s a hf
  constructor
  · intro heven
    rw [perform_running _ s hf, performRunning, setPc_even s a heven, writePc_eq_byWidth]
  · intro hodd
    rw [perform_running _ s hf, performRunning, setPc_odd s a hodd, State.raise]

/-- Settles O59: by the entry the table of names has for the name; nothing is assumed of the table. -/
theorem isaActivationSetsTheWidthOnly : Obligations.IsaActivationSetsTheWidthOnly := by
  unfold Obligations.IsaActivationSetsTheWidthOnly
  intro s name hf
  rw [perform_running _ s hf, performRunning, isaRecognised]
  cases hname : Config.isaNameWidth name with
  | some b => exact .inl ⟨rfl, b, rfl, congrArg Host.Outcome.next (activateIsa_recognised s hname)⟩
  | none => exact .inr ⟨rfl, rfl, congrArg Host.Outcome.next (activateIsa_unrecognised s hname)⟩

end Sys2Proof.Proofs.Engine
end

section
/-! Faults (spec/60_exceptions.md R226, R227): what a step or host operation that latches a fault leaves, and the latched
core. -/

namespace Sys2Proof.Proofs.Exceptions

open Machine StateRules MemoryRules Engine

/-! ### A step that latches a fault (R226) -/

/-- The faults a step can raise, each with the pc of the instruction (R220, codes 1 to 3). -/
def StepFault (s : State) (f : Fault) : Prop :=
  f = .fetchBounds s.pcX ∨ (∃ w, f = .decode s.pcX w) ∨ ∃ addr size dir, f = .memBounds s.pcX addr size dir

/-- The trace stage writes the output alone (R193). -/
theorem emitTrace_eq_withSink (s : State) (i : Instr) : s.emitTrace i = { s with sink := (s.emitTrace i).sink } := by
  unfold State.emitTrace; split <;> rfl

/-- By the stage that raised: fetch and decode raise in the state the step began in, execute in that state with its trace
line emitted. -/
theorem step_raises {s t : State} {f : Fault} (hf : s.fault = none) (h : step s = .next t) (ht : t.fault = some f) :
    (∃ l, t = { s with sink := l, fault := some f }) ∧ StepFault s f := by
  rcases step_cases s with ⟨⟨g, hg⟩, _⟩ | ⟨_, _, hs⟩ | ⟨_, _, w, r, _, _, hs⟩ | ⟨_, _, w, i, _, _, hs⟩
  · rw [hf] at hg; cases hg
  · cases h.symm.trans hs
    cases ht; exact ⟨⟨s.sink, rfl⟩, .inl rfl⟩
  · cases h.symm.trans hs
    cases ht; exact ⟨⟨s.sink, rfl⟩, .inr (.inl ⟨w, rfl⟩)⟩
  · rcases exec_latch (hs.symm.trans h) with hkeep | ⟨addr, size, dir, _, _, hraise⟩
    · rw [ht, emitTrace_fault, hf] at hkeep; cases hkeep
    · rw [emitTrace_pcX] at hraise
      subst hraise
      cases ht
      refine ⟨⟨(s.emitTrace i).sink, ?_⟩, .inr (.inr ⟨addr, size, dir, rfl⟩)⟩
      rw [State.raise, emitTrace_eq_withSink s i]

/-! ### A host operation that latches a fault (R226) -/

theorem setWidthMode_fault (s : State) (b : Bool) : (s.setWidthMode b).fault = s.fault := by
  unfold State.setWidthMode; split <;> rfl

theorem activateIsa_fault (s : State) (name : String) : (s.activateIsa name).fault = s.fault := by
  cases hname : Config.isaNameWidth name with
  | some b => rw [activateIsa_recognised s hname, setWidthMode_fault]
  | none => rw [activateIsa_unrecognised s hname]

/-- Only `set_pc` of an odd address and `increment_pc` of an odd size latch a fault (R198, R24). -/
theorem performRunning_latch {op : HostOp} {s t : State} (hf : s.fault = none) (h : performRunning op s = .next t) :
    t.fault = none ∨ (∃ a, t = s.raise (.pcAlign a)) ∨ ∃ n, t = s.raise (.pcIncrement n) := by
  cases op with
  | setPc a =>
    cases h
    cases hodd : a.getLsbD 0 with
    | false => exact .inl (by rw [setPc_even s a hodd, writePc_fault, hf])
    | true => exact .inr (.inl ⟨a, setPc_odd s a hodd⟩)
  | incrementPc n =>
    cases h
    cases hodd : n.getLsbD 0 with
    | false => exact .inl (by rw [incrementPc_even s n hodd, offsetPc_fault, hf])
    | true => exact .inr (.inr ⟨n, incrementPc_odd s n hodd⟩)
  | writeMem a bytes =>
    rcases Nat.lt_or_ge s.mem.len (a + bytes.length) with hb | hb
    · simp only [performRunning, hostWriteMem_none s a bytes hb] at h
      cases h
    · simp only [performRunning, hostWriteMem_some s a bytes hb] at h
      cases h; exact .inl hf
  | writeReg i v => cases h; exact .inl ((writeReg_fault s i v).trans hf)
  | setWidthMode b => cases h; exact .inl ((setWidthMode_fault s b).trans hf)
  | activateIsa name => cases h; exact .inl ((activateIsa_fault s name).trans hf)
  | reset w32 m => cases h; exact .inl (launch_fault w32 m)
  | loadCode | writePc | offsetPc | setTrace => cases h; exact .inl hf

theorem perform_raises {op : HostOp} {s t : State} {f : Fault} (hf : s.fault = none) (h : perform op s = .next t)
    (ht : t.fault = some f) : t = s.raise f ∧ ((∃ a, f = .pcAlign a) ∨ ∃ n, f = .pcIncrement n) := by
  rw [perform_running op s hf] at h
  rcases performRunning_latch hf h with hnone | ⟨a, rfl⟩ | ⟨n, rfl⟩
  · rw [hnone] at ht; cases ht
  · cases ht; exact ⟨rfl, .inl ⟨a, rfl⟩⟩
  · cases ht; exact ⟨rfl, .inr ⟨n, rfl⟩⟩

/-! ### The statements -/

/-- Settles O44: the state a fault is latched in is the state before with the latch (and, of a step, the output) written, so
clearing the latch gives back the state before. -/
theorem faultsArePrecise : Obligations.FaultsArePrecise := by
  unfold Obligations.FaultsArePrecise
  refine ⟨?_, ?_, step_latched⟩
  · intro s t f hf h ht
    obtain ⟨⟨l, rfl⟩, hstage⟩ := step_raises hf h ht
    exact ⟨by rw [← hf], hstage⟩
  · intro op s t f hf h ht
    obtain ⟨rfl, hkind⟩ := perform_raises hf h ht
    exact ⟨by rw [State.raise, ← hf], hkind⟩

/-- Settles O45: a step, a run and an operation each look at the latch first, and the launched state has none. -/
theorem latchedCoreDoesNothing : Obligations.LatchedCoreDoesNothing := by
  unfold Obligations.LatchedCoreDoesNothing
  intro s f hf
  exact ⟨step_latched s f hf, fun n => runCount_latched n s f hf, fun _ hop => perform_latched hf hop,
    fun w m => ⟨rfl, launch_fault w m⟩⟩

end Sys2Proof.Proofs.Exceptions
end

section
/-! The codec (spec/30_encoding.md R61 to R82): the round trip, the rows of the opcode table and the fields. -/

namespace Sys2Proof.Proofs.RoundTrip

open Encoding

/-! ### From an instruction to its word and back (R82) -/

/-- Decode dispatches on the opcode, `funct3` and `funct7` that the layout put there, and reads back the fields; an immediate
with implicit zero bits is read back whole when these bits are zero. -/
theorem decode_encodeWord (i : Instr) (h : i.wellFormed = true) : decode (encodeWord i) = .instr i := by
  cases i with
  | lui rd m | auipc rd m =>
    have hm : m.extractLsb' 0 12 = 0 := eq_of_beq h
    simp [encodeWord, decode, immUOf_packU m rd _ hm]
  | jal rd m =>
    have hm : m.getLsbD 0 = false := eq_of_beq h
    simp [encodeWord, decode, immJOf_packJ m rd _ hm]
  | jalr => simp [encodeWord, decode, decodeJalr]
  | beq a b m | bne a b m | blt a b m | bge a b m | bltu a b m | bgeu a b m =>
    have hm : m.getLsbD 0 = false := eq_of_beq h
    simp [encodeWord, decode, decodeBranch, immBOf_packB m b a _ _ hm]
  | lb | lh | lw | lbu | lhu => simp [encodeWord, decode, decodeLoad]
  | sb | sh | sw => simp [encodeWord, decode, decodeStore]
  | addi | slti | sltiu | xori | ori | andi | slli | srli | srai => simp [encodeWord, decode, decodeRegImm]
  | add | sub | sll | slt | sltu | xor | srl | sra | or | and => simp [encodeWord, decode, decodeRegReg]
  | fence | fenceI => simp [encodeWord, decode, decodeFence]

theorem encode_of_wellFormed {i : Instr} (h : i.wellFormed = true) : encode i = some (encodeWord i) := if_pos h

/-- A decoded instruction is representable and its word is the word decoded. -/
theorem encode_of_decode {w : InstrWord} {i : Instr} (h : decode w = .instr i) : encode i = some w := by
  rw [encode_of_wellFormed (reads_of_decode h).wellFormed, (reads_of_decode h).encodes]

/-! ### The rows of the opcode table (R79) -/

/-- The two rows ask for different values of some bit that both masks cover. -/
def RowsConflict (a b : OpcodeRow) : Prop := a.pattern &&& b.mask ≠ b.pattern &&& a.mask

/-- A word that matches both rows has, under both masks, the bits of either pattern. -/
theorem not_both_match_of_rowsConflict {a b : OpcodeRow} (h : RowsConflict a b) (w : InstrWord) :
    ¬ (a.matchesWord w = true ∧ b.matchesWord w = true) := by
  rintro ⟨ha, hb⟩
  have hwa : w &&& a.mask = a.pattern := eq_of_beq ha
  have hwb : w &&& b.mask = b.pattern := eq_of_beq hb
  refine h ?_
  rw [← hwa, ← hwb, BitVec.and_assoc, BitVec.and_assoc, BitVec.and_comm a.mask]

theorem opcodeTable_rows_conflict : opcodeTable.Pairwise RowsConflict := by
  unfold RowsConflict
  decide

/-! ### The statements -/

/-- Settles O1: decode undoes the layout of a representable instruction, and what decode reads of a word is enough to write
the word again. -/
theorem decodeAndEncodeAreInverse : Obligations.DecodeAndEncodeAreInverse := by
  unfold Obligations.DecodeAndEncodeAreInverse
  exact ⟨fun i hi => ⟨encodeWord i, encode_of_wellFormed hi, decode_encodeWord i hi⟩, fun w i => encode_of_decode⟩

/-- Settles O2: any two rows differ in a bit that both masks cover. -/
theorem opcodeRowsAreDisjoint : Obligations.OpcodeRowsAreDisjoint := by
  unfold Obligations.OpcodeRowsAreDisjoint
  exact opcodeTable_rows_conflict.imp not_both_match_of_rowsConflict

/-- Settles O4: decode keeps, of every word, what its layout says. -/
theorem decodedFieldsComeFromTheirBits : Obligations.DecodedFieldsComeFromTheirBits := by
  unfold Obligations.DecodedFieldsComeFromTheirBits
  exact fun w i h => ⟨(reads_of_decode h).fields, (reads_of_decode h).wellFormed⟩

/-- Settles O7: each word is the encoding of its instruction, which is representable, so decoding gives it back. -/
theorem sampleWordsDecode : Obligations.SampleWordsDecode := by
  unfold Obligations.SampleWordsDecode
  exact ⟨decode_encodeWord (.lui 1 0x12345000) rfl, decode_encodeWord (.jal 1 16) rfl,
    decode_encodeWord (.bne 1 2 0x1FF8) rfl, decode_encodeWord (.lw 5 8 0xFFC) rfl,
    decode_encodeWord (.sb 1 2 0xFFF) rfl, decode_encodeWord (.srai 1 2 63) rfl,
    decode_encodeWord (.sub 3 1 2) rfl, decode_encodeWord (.fence 0 0 0x0FF) rfl⟩

end Sys2Proof.Proofs.RoundTrip
end

section
/-! The buffers and the access primitives (spec/10_state.md section 7, spec/20_memory.md R44 to R46), and the host's
access to MEM (spec/45_engine.md R200). -/

namespace Sys2Proof.Proofs.Buffers

open Machine Claims MemoryRules

/-! ### The bounds fault of the primitives -/

section
variable (s : State) (addr : Word) (size : AccessSize)

theorem memRead_eq_none_iff : s.memRead addr size = none ↔ s.mem.len < addr.toNat + size.bytes := by
  refine ⟨fun h => ?_, memRead_none s addr size⟩
  by_contra hb
  cases (memRead_some s addr size (Nat.le_of_not_lt hb)).symm.trans h

theorem memWrite_eq_none_iff (v : Word) : s.memWrite addr size v = none ↔ s.mem.len < addr.toNat + size.bytes := by
  refine ⟨fun h => ?_, memWrite_none s addr size v⟩
  by_contra hb
  cases (memWrite_some s addr size v (Nat.le_of_not_lt hb)).symm.trans h

theorem codeRead_eq_none_iff : s.codeRead addr = none ↔ s.code.len < addr.toNat + 4 := by
  refine ⟨fun h => ?_, codeRead_none s addr⟩
  by_contra hb
  cases (codeRead_some s addr (Nat.le_of_not_lt hb)).symm.trans h

end

theorem memWrite_eq_some {s t : State} {addr : Word} {size : AccessSize} {v : Word}
    (h : s.memWrite addr size v = some t) : t = { s with mem := s.mem.writeLE addr.toNat size.bytes v } := by
  rcases Nat.lt_or_ge s.mem.len (addr.toNat + size.bytes) with hb | hb
  · rw [memWrite_none s addr size v hb] at h; cases h
  · rw [memWrite_some s addr size v hb] at h; exact (Option.some.inj h).symm

/-! ### The bytes of a store -/

theorem byteAt_writeLE_in (m : Memory) (a : Nat) {n k : Nat} (v : Word) (hk : k < n) :
    (m.writeLE a n v).byteAt (a + k) = v.extractLsb' (8 * k) 8 := by
  rw [byteAt_writeLE, if_pos (by omega), Nat.add_sub_cancel_left]

theorem byteAt_writeLE_out (m : Memory) {a n x : Nat} (v : Word) (hx : x < a ∨ a + n ≤ x) :
    (m.writeLE a n v).byteAt x = m.byteAt x := by
  rw [byteAt_writeLE, if_neg (by omega)]

/-! ### The host's access to MEM (R200) -/

theorem bytesAt_setBytes (m : Memory) (a : Nat) (bytes : List Byte) :
    (m.setBytes a bytes).bytesAt a bytes.length = bytes := by
  refine List.ext_getElem (bytesAt_length _ _ _) fun i hi hi' => ?_
  rw [bytesAt_getElem, byteAt_setBytes_in m a i bytes hi']

theorem hostReadMem_some (s : State) {a n : Nat} (h : a + n ≤ s.mem.len) :
    s.hostReadMem a n = some (s.mem.bytesAt a n) := if_pos ((inBounds_iff s.mem a n).mpr h)

theorem hostReadMem_none (s : State) {a n : Nat} (h : s.mem.len < a + n) : s.hostReadMem a n = none :=
  if_neg fun hb => Nat.not_le.mpr h ((inBounds_iff s.mem a n).mp hb)

/-! ### The statements -/

/-- Settles O17: the primitive decides on the bounds alone, and in bounds reads the little-endian value; an access past
2^`XLEN` - 1 ends past a memory that is no longer than that. -/
theorem memReadIsBoundedAndLittleEndian : Obligations.MemReadIsBoundedAndLittleEndian := by
  unfold Obligations.MemReadIsBoundedAndLittleEndian
  intro s addr
  refine ⟨memRead_eq_none_iff s addr, fun size hlen hpast => memRead_none s addr size (hlen.trans_lt hpast), ?_, ?_, ?_⟩
  · intro hb
    rw [memRead_some s addr .byte hb]; exact congrArg some (readLE_one _ _)
  · intro hb
    rw [memRead_some s addr .half hb]; exact congrArg some (readLE_two _ _)
  · intro hb
    rw [memRead_some s addr .word hb]; exact congrArg some (readLE_four _ _)

/-- Settles O18: the primitive decides on the bounds alone, and in bounds replaces the bytes of the range in MEM, which is
the only field it writes. -/
theorem memWriteIsBoundedAndLittleEndian : Obligations.MemWriteIsBoundedAndLittleEndian := by
  unfold Obligations.MemWriteIsBoundedAndLittleEndian
  intro s addr size v
  refine ⟨memWrite_eq_none_iff s addr size v, fun hlen hpast => memWrite_none s addr size v (hlen.trans_lt hpast),
    fun t ht => ?_⟩
  cases memWrite_eq_some ht
  exact ⟨fun k hk => byteAt_writeLE_in s.mem _ v hk, fun x hx => byteAt_writeLE_out s.mem v hx, writeLE_len _ _ _ _, rfl,
    fun _ => rfl, rfl, rfl, rfl, rfl, rfl⟩

/-- Settles O19: as of `MemRead`, with the word of the fetch. -/
theorem codeReadIsBoundedAndLittleEndian : Obligations.CodeReadIsBoundedAndLittleEndian := by
  unfold Obligations.CodeReadIsBoundedAndLittleEndian
  exact fun s addr => ⟨codeRead_eq_none_iff s addr, codeRead_eq_le32 s addr⟩

/-- Settles O20: a canonical list of cells is determined by what it reads as at every address. -/
theorem canonicalBuffersAreEqualWhenTheirBytesAre : Obligations.CanonicalBuffersAreEqualWhenTheirBytesAre := by
  unfold Obligations.CanonicalBuffersAreEqualWhenTheirBytesAre
  exact Memory_ext

/-- Settles O58: in bounds the write puts the bytes into MEM and the read of the same range gives them back; the bounds
decide both operations. -/
theorem hostMemoryAccessStaysInBounds : Obligations.HostMemoryAccessStaysInBounds := by
  unfold Obligations.HostMemoryAccessStaysInBounds
  intro s a bytes hf
  rw [perform_running _ s hf, performRunning]
  constructor
  · intro hb
    have hlen : (s.mem.setBytes a bytes).len = s.mem.len := setBytes_len s.mem a bytes
    rw [hostWriteMem_some s a bytes hb]
    refine ⟨_, rfl, ?_, fun x hx => byteAt_setBytes_out s.mem a x bytes hx, hlen, rfl⟩
    rw [hostReadMem_some _ (hb.trans_eq hlen.symm), bytesAt_setBytes]
  · intro hb
    rw [hostWriteMem_none s a bytes hb]
    exact ⟨rfl, hostReadMem_none s hb⟩

end Sys2Proof.Proofs.Buffers
end

section
/-! Loads and stores (spec/43_load_store.md R160 to R171) and the hint forms (spec/30_encoding.md R80). -/

namespace Sys2Proof.Proofs.LoadStore

open Machine Claims StateRules MemoryRules Buffers IntImm

/-! ### Completing with a result (R100) -/

/-- With register 0 as the destination only the pc moves. -/
theorem complete_zero (s : State) (r : Word) : s.complete 0 r = .next { s with pc := nextPc s } := by
  rw [complete_eq, writeReg_zero, State.writePc, trunc_add4_eq_nextPc]

/-- The contract of R100 at one state: `rd` holds the result as it reads at the width of that state. -/
theorem complete_contract {s : State} {r : Word} {v32 : BitVec 32} {v64 : BitVec 64} (rd : RegIdx)
    (h32 : r.setWidth 32 = v32) (h64 : r = v64) :
    ∃ t : State, s.complete rd r = .next t ∧ t.readCell rd = (if rd = 0 then 0 else byWidth s v32 v64) ∧
      t.pc = nextPc s ∧ RegsSameBut rd s t ∧ RestSame s t ∧ MemSame s t := by
  refine ⟨_, complete_eq s rd r, ?_, ?_, regsSameBut_writeReg s rd r, restSame_writeReg s rd r, memSame_writeReg s rd r⟩
  · rw [writePc_readCell, readCell_writeReg_self, h32, h64]
  · rw [writePc_pc, writeReg_trunc, trunc_add4_eq_nextPc]

/-! ### The effective address (R160) -/

/-- The sum wraps at each width because taking the low half commutes with addition. -/
theorem loadAddr_eq_byWidth (s : State) (rs1 : RegIdx) (m : BitVec 12) :
    s.loadAddr rs1 m = byWidth s (reg32 s rs1 + m.signExtend 32) (reg64 s rs1 + m.signExtend 64) := by
  unfold State.loadAddr
  rw [trunc_eq_byWidth]
  refine byWidth_of_widths (fun _ => ?_) (fun hw => ?_)
  · rw [setWidth32_add, setWidth_x_eq_reg32, setWidth_immI]
  · rw [x_eq_reg64 hw, immI_native hw]

theorem loadAddr_toNat (s : State) (rs1 : RegIdx) (m : BitVec 12) : (s.loadAddr rs1 m).toNat = ea s rs1 m := by
  rw [loadAddr_eq_byWidth]
  unfold byWidth ea
  split
  · exact BitVec.toNat_setWidth_of_le (by decide)
  · rfl

theorem storeAddr_toNat (s : State) (rs1 : RegIdx) (m : BitVec 12) : (s.storeAddr rs1 m).toNat = ea s rs1 m :=
  loadAddr_toNat s rs1 m

theorem byWidth_congr {s t : State} (hw : t.w32 = s.w32) (v32 : BitVec 32) (v64 : BitVec 64) :
    byWidth t v32 v64 = byWidth s v32 v64 := by
  unfold byWidth; rw [hw]

/-- The effective address reads the width and the base register only. -/
theorem ea_congr {s t : State} (hw : t.w32 = s.w32) (hr : RegsSame s t) (rs1 : RegIdx) (m : BitVec 12) :
    ea t rs1 m = ea s rs1 m := by
  unfold ea reg32 reg64
  rw [hw, hr rs1]

/-! ### The loads (R162) -/

section
variable {i : Instr} {size : AccessSize} {rd rs1 : RegIdx} {m : BitVec 12} {n : Nat} {v : State → Nat → BitVec n}

/-- An instruction that is the common `load` meets R162 for its extended value as it reads at each width. -/
theorem loadRule_of_load {sg : Bool} {v32 : State → Nat → BitVec 32} {v64 : State → Nat → BitVec 64}
    (hexec : ∀ s, exec i s = s.load size sg rd rs1 m)
    (h32 : ∀ s a, (loadExtend size sg (s.mem.readLE a size.bytes)).setWidth 32 = v32 s a)
    (h64 : ∀ s a, loadExtend size sg (s.mem.readLE a size.bytes) = v64 s a) : LoadRule i size rd rs1 m v32 v64 := by
  intro s
  rw [hexec, ← loadAddr_toNat]
  constructor
  · intro hb
    rw [load_inBounds s size sg rd rs1 m hb]
    exact complete_contract rd (h32 s _) (h64 s _)
  · intro hb
    rw [load_outOfBounds s size sg rd rs1 m hb, State.raise]

/-- LB, LH, LW: the loaded vector is sign-extended. -/
theorem loadRule_signed (hn : n = 8 * size.bytes) (hexec : ∀ s, exec i s = s.load size true rd rs1 m)
    (hread : ∀ (s : State) a, s.mem.readLE a size.bytes = (v s a).setWidth 64) :
    LoadRule i size rd rs1 m (fun s a => (v s a).signExtend 32) (fun s a => (v s a).signExtend 64) := by
  have hpos : 0 < n := by subst hn; cases size <;> decide
  have hle : n ≤ 64 := by subst hn; cases size <;> decide
  have hext : ∀ s a, loadExtend size true (s.mem.readLE a size.bytes) = sext (v s a) := fun s a => by
    rw [hread, loadExtend, if_pos rfl, ← hn, sext]
  exact loadRule_of_load hexec (fun s a => by rw [hext, setWidth_sext _ hpos hle])
    (fun s a => by rw [hext, sext_eq_signExtend _ hpos hle])

/-- LBU, LHU: the loaded vector is zero-extended. -/
theorem loadRule_unsigned (hexec : ∀ s, exec i s = s.load size false rd rs1 m)
    (hread : ∀ (s : State) a, s.mem.readLE a size.bytes = (v s a).setWidth 64) :
    LoadRule i size rd rs1 m (fun s a => (v s a).setWidth 32) (fun s a => (v s a).setWidth 64) :=
  loadRule_of_load hexec (fun s a => (congrArg (BitVec.setWidth 32) (hread s a)).trans
    (BitVec.setWidth_setWidth_of_le _ (by decide))) hread

end

/-- A loaded word fills the register in 32-bit mode, so there the extension is no change (R165). -/
theorem loadRule_lw (rd rs1 : RegIdx) (m : BitVec 12) : LoadRule (.lw rd rs1 m) .word rd rs1 m
    (fun s a => le32 s.mem a) (fun s a => (le32 s.mem a).signExtend 64) := by
  have hword : LoadRule (.lw rd rs1 m) .word rd rs1 m (fun s a => (le32 s.mem a).signExtend 32)
      (fun s a => (le32 s.mem a).signExtend 64) := loadRule_signed rfl (fun _ => rfl) fun _ _ => readLE_four _ _
  simpa only [BitVec.signExtend_eq] using hword

/-! ### The stores (R168) -/

/-- The bytes a store takes lie in the low half, where the register reads alike at each width. -/
theorem extractByte_x (s : State) (i : RegIdx) {k : Nat} (hk : k < 4) :
    (s.x i).extractLsb' (8 * k) 8 = (reg64 s i).extractLsb' (8 * k) 8 := by
  apply BitVec.eq_of_getLsbD_eq
  intro j hj
  rw [BitVec.getLsbD_extractLsb', BitVec.getLsbD_extractLsb']
  cases hw : s.w32 with
  | true => rw [x_eq_low32 hw, getLsbD_low32, decide_eq_true (by omega : 8 * k + j < 32), Bool.true_and]; rfl
  | false => rw [x_eq_reg64 hw]

/-- An instruction that is the common `store` meets R168. -/
theorem storeRule_of_store {i : Instr} {size : AccessSize} {rs1 rs2 : RegIdx} {m : BitVec 12}
    (hexec : ∀ s, exec i s = s.store size rs1 rs2 m) : StoreRule i size rs1 rs2 m := by
  have hsize : size.bytes ≤ 4 := by cases size <;> decide
  rintro s a rfl
  rw [hexec]
  constructor
  · intro hb
    refine ⟨_, store_inBounds s size rs1 rs2 m hb, fun k hk => ?_, fun x hx => byteAt_writeLE_out s.mem _ hx,
      writeLE_len _ _ _ _, trunc_add4_eq_nextPc s, fun _ => rfl, rfl, rfl, rfl, rfl, rfl⟩
    exact (byteAt_writeLE_in s.mem _ (s.x rs2) hk).trans (extractByte_x s rs2 (hk.trans_le hsize))
  · intro hb
    rw [store_outOfBounds s size rs1 rs2 m hb, State.raise]

theorem encoded_packS {i : Instr} {m : BitVec 12} {rs2 rs1 : RegIdx} {f3 : BitVec 3} {op : BitVec 7}
    (h : encodeWord i = packS m rs2 rs1 f3 op) : Encoded i op f3 := by
  unfold Encoded
  rw [h]
  exact ⟨opcodeOf_packS m rs2 rs1 f3 op, funct3Of_packS m rs2 rs1 f3 op⟩

/-- Four bytes that are those of a word read as its low half. -/
theorem le32_of_bytes {m : Memory} {a : Nat} {v : Word}
    (h : ∀ k, k < 4 → m.byteAt (a + k) = v.extractLsb' (8 * k) 8) : le32 m a = v.setWidth 32 := by
  apply BitVec.eq_of_getLsbD_eq
  intro j hj
  rw [getLsbD_le32, h (j / 8) (by omega), BitVec.getLsbD_extractLsb', BitVec.getLsbD_setWidth, Nat.div_add_mod,
    decide_eq_true (Nat.mod_lt j (by decide)), Bool.true_and]

/-! ### The statements -/

/-- Settles O35: loads and stores share one address function, the sum at the effective width. -/
theorem effectiveAddressWrapsAtTheWidth : Obligations.EffectiveAddressWrapsAtTheWidth := by
  unfold Obligations.EffectiveAddressWrapsAtTheWidth
  exact fun s rs1 m => ⟨loadAddr_toNat s rs1 m, storeAddr_toNat s rs1 m⟩

/-- Settles O36: each load is the common `load`, and what it reads is the little-endian vector that its rule extends. -/
theorem loadsExtendOrFault : Obligations.LoadsExtendOrFault := by
  unfold Obligations.LoadsExtendOrFault
  intro rd rs1 m
  exact ⟨encoded_packI rfl, encoded_packI rfl, encoded_packI rfl, encoded_packI rfl, encoded_packI rfl,
    loadRule_signed rfl (fun _ => rfl) fun _ _ => readLE_one _ _,
    loadRule_signed rfl (fun _ => rfl) fun _ _ => readLE_two _ _,
    loadRule_lw rd rs1 m,
    loadRule_unsigned (fun _ => rfl) fun _ _ => readLE_one _ _,
    loadRule_unsigned (fun _ => rfl) fun _ _ => readLE_two _ _⟩

/-- Settles O37: each store is the common `store`. -/
theorem storesWriteTheLowBytes : Obligations.StoresWriteTheLowBytes := by
  unfold Obligations.StoresWriteTheLowBytes
  exact fun rs1 rs2 m => ⟨encoded_packS rfl, encoded_packS rfl, encoded_packS rfl, storeRule_of_store fun _ => rfl,
    storeRule_of_store fun _ => rfl, storeRule_of_store fun _ => rfl⟩

/-- Settles O38: by the rules of SW and LW. The store leaves the base register, the width and MEM_LEN, so the load has the
same address and is in bounds, and the four bytes it reads are those of the stored register. -/
theorem storeThenLoadReturnsTheWord : Obligations.StoreThenLoadReturnsTheWord := by
  unfold Obligations.StoreThenLoadReturnsTheWord
  intro s rd rs1 rs2 m hb
  have hsw : StoreRule (.sw rs1 rs2 m) .word rs1 rs2 m := storeRule_of_store fun _ => rfl
  obtain ⟨t, ht, hbytes, _, hlen, _, hregs, hw, _⟩ := (hsw s _ (storeAddr_toNat s rs1 m)).1 hb
  have hea : ea t rs1 m = ea s rs1 m := ea_congr hw hregs rs1 m
  have hword : le32 t.mem (ea t rs1 m) = reg32 s rs2 := by rw [hea]; exact le32_of_bytes hbytes
  obtain ⟨u, hu, hrd, _⟩ := (loadRule_lw rd rs1 m t).1 (by rw [hea, hlen]; exact hb)
  exact ⟨t, u, ht, hu, by simp only [hrd, hword, byWidth_congr hw]⟩

/-- Settles O30: every form of the three groups ends in `complete`, which with register 0 moves the pc alone; the other
instructions have no hint form. -/
theorem hintFormsOnlyAdvanceThePc : Obligations.HintFormsOnlyAdvanceThePc := by
  unfold Obligations.HintFormsOnlyAdvanceThePc
  intro i s hhint hdest
  cases i with
  | lui rd | auipc rd | addi rd | slti rd | sltiu rd | xori rd | ori rd | andi rd | slli rd | srli rd | srai rd =>
    obtain rfl : rd = 0 := Option.some.inj hdest
    exact complete_zero s _
  | add rd | sub rd | sll rd | slt rd | sltu rd | xor rd | srl rd | sra rd | or rd | and rd =>
    obtain rfl : rd = 0 := Option.some.inj hdest
    exact complete_zero s _
  | jal | jalr | beq | bne | blt | bge | bltu | bgeu | lb | lh | lw | lbu | lhu | sb | sh | sw | fence | fenceI =>
    cases hhint

end Sys2Proof.Proofs.LoadStore
end

section
/-! What an instruction, a step and a host operation leave unchanged (spec/10_state.md R12, R13, R28, spec/20_memory.md R53,
spec/45_engine.md R190 to R206). -/

namespace Sys2Proof.Proofs.FrameRules

open Machine Claims StateRules MemoryRules Encoding Buffers Engine

/-! ### The register and the bytes an instruction writes (R12, R53) -/

/-- What executing `i` writes, by its own fields: its `rd` and the pc, or the bytes of its store and the pc, or the latch. -/
inductive Writes (i : Instr) (s : State) : State → Prop
  /-- `rd` = 0 is the instruction that writes no register. -/
  | reg (rd : RegIdx) (r p : Word) (h : destOf i = some rd ∨ rd = 0) : Writes i s ((s.writeReg rd r).writePc p)
  | stored (a n : Nat) (v p : Word) (h : storedRange i s = some (a, n)) :
      Writes i s (State.writePc { s with mem := s.mem.writeLE a n v } p)
  | latch (f : Fault) : Writes i s (s.raise f)

section
variable {i : Instr} {s t : State}

theorem writePc_writes (p : Word) : Writes i s (s.writePc p) := by
  simpa only [writeReg_zero] using Writes.reg (i := i) (s := s) 0 0 p (.inr rfl)

theorem complete_writes {rd : RegIdx} {r : Word} (hdest : destOf i = some rd) (h : s.complete rd r = .next t) :
    Writes i s t := by
  rw [complete_eq] at h
  cases h; exact .reg rd r _ (.inl hdest)

theorem branch_writes {taken : Bool} {m : BitVec 13} (h : s.branch taken m = .next t) : Writes i s t := by
  rw [branch_eq] at h
  cases h; exact writePc_writes _

theorem load_writes {size : AccessSize} {sg : Bool} {rd rs1 : RegIdx} {m : BitVec 12} (hdest : destOf i = some rd)
    (h : s.load size sg rd rs1 m = .next t) : Writes i s t := by
  rcases Nat.lt_or_ge s.mem.len ((s.loadAddr rs1 m).toNat + size.bytes) with hb | hb
  · rw [load_outOfBounds s size sg rd rs1 m hb] at h
    cases h; exact .latch _
  · rw [load_inBounds s size sg rd rs1 m hb] at h
    exact complete_writes hdest h

theorem store_writes {size : AccessSize} {rs1 rs2 : RegIdx} {m : BitVec 12}
    (hrange : storedRange i s = some ((s.storeAddr rs1 m).toNat, size.bytes)) (h : s.store size rs1 rs2 m = .next t) :
    Writes i s t := by
  rcases Nat.lt_or_ge s.mem.len ((s.storeAddr rs1 m).toNat + size.bytes) with hb | hb
  · rw [store_outOfBounds s size rs1 rs2 m hb] at h
    cases h; exact .latch _
  · rw [store_inBounds s size rs1 rs2 m hb] at h
    cases h; exact .stored _ _ _ _ hrange

theorem exec_writes (h : exec i s = .next t) : Writes i s t := by
  cases i with
  | jal rd m => cases h; exact .reg rd _ _ (.inl rfl)
  | jalr rd rs1 m => cases h; exact .reg rd _ _ (.inl rfl)
  | beq | bne | blt | bge | bltu | bgeu => exact branch_writes h
  | lb | lh | lw | lbu | lhu => exact load_writes rfl h
  | sb | sh | sw => exact store_writes rfl h
  | fence | fenceI => cases h; rw [advance_eq]; exact writePc_writes _
  | lui | auipc | addi | slti | sltiu | xori | ori | andi | slli | srli | srai => exact complete_writes rfl h
  | add | sub | sll | slt | sltu | xor | srl | sra | or | and => exact complete_writes rfl h

theorem readCell_of_writes {j : RegIdx} (h : Writes i s t) (hj : destOf i ≠ some j) : t.readCell j = s.readCell j := by
  cases h with
  | reg rd r p hdest =>
    rw [writePc_readCell]
    rcases hdest with hdest | rfl
    · exact regsSameBut_writeReg s rd r j fun hjr => hj (hjr ▸ hdest)
    · rw [writeReg_zero]
  | stored a n v p _ => rfl
  | latch f => rfl

theorem byteAt_of_writes {x : Nat} (h : Writes i s t)
    (hx : ∀ a n, storedRange i s = some (a, n) → x < a ∨ a + n ≤ x) : t.mem.byteAt x = s.mem.byteAt x := by
  cases h with
  | reg rd r p _ => rw [writePc_mem, writeReg_mem]
  | stored a n v p hrange => exact byteAt_writeLE_out s.mem v (hx a n hrange)
  | latch f => rfl

end

/-! ### What every instruction and every step keeps (R13, R28, R53) -/

/-- CODE, the width mode, the trace flag and the length of MEM are unchanged. -/
structure ModesSame (s t : State) : Prop where
  code : t.code = s.code
  w32 : t.w32 = s.w32
  trace : t.trace = s.trace
  memLen : t.mem.len = s.mem.len

section
variable {i : Instr} {s t u : State}

theorem ModesSame.trans (h : ModesSame s t) (h' : ModesSame t u) : ModesSame s u :=
  ⟨h'.code.trans h.code, h'.w32.trans h.w32, h'.trace.trans h.trace, h'.memLen.trans h.memLen⟩

theorem modesSame_raise (s : State) (f : Fault) : ModesSame s (s.raise f) := ⟨rfl, rfl, rfl, rfl⟩

theorem modesSame_writePc (s : State) (v : Word) : ModesSame s (s.writePc v) := ⟨rfl, rfl, rfl, rfl⟩

theorem modesSame_writeReg (s : State) (i : RegIdx) (v : Word) : ModesSame s (s.writeReg i v) :=
  ⟨writeReg_code s i v, writeReg_w32 s i v, writeReg_trace s i v, congrArg Memory.len (writeReg_mem s i v)⟩

theorem modesSame_emitTrace (s : State) (i : Instr) : ModesSame s (s.emitTrace i) :=
  ⟨emitTrace_code s i, emitTrace_w32 s i, emitTrace_trace s i, congrArg Memory.len (emitTrace_mem s i)⟩

theorem modesSame_of_effect (h : Effect i s t) : ModesSame s t := by
  cases h with
  | reg rd r p _ => exact (modesSame_writeReg s rd r).trans (modesSame_writePc _ p)
  | stored a n v _ => exact ⟨rfl, rfl, rfl, writeLE_len s.mem a n v⟩
  | fault addr size dir _ => exact modesSame_raise s _

theorem sink_of_effect (h : Effect i s t) : t.sink = s.sink := by
  cases h with
  | reg rd r p _ => rw [writePc_sink, writeReg_sink]
  | stored a n v _ => rfl
  | fault addr size dir _ => rfl

theorem effect_of_exec (h : exec i s = .next t) : Effect i s t := by
  obtain ⟨t', ht', he⟩ := exec_effect i s
  cases h.symm.trans ht'
  exact he

/-- A step changes nothing, takes a fault of its fetch or decode, or has the effect of a representable instruction. -/
theorem step_effect (h : step s = .next t) :
    t = s ∨ (∃ f, t = s.raise f) ∨ ∃ i : Instr, i.wellFormed = true ∧ Effect i (s.emitTrace i) t := by
  rcases step_cases s with ⟨_, hs⟩ | ⟨_, _, hs⟩ | ⟨_, _, w, r, _, _, hs⟩ | ⟨_, _, w, i, _, hd, hs⟩
  · cases h.symm.trans hs; exact .inl rfl
  · cases h.symm.trans hs; exact .inr (.inl ⟨_, rfl⟩)
  · cases h.symm.trans hs; exact .inr (.inl ⟨_, rfl⟩)
  · exact .inr (.inr ⟨i, (reads_of_decode hd).wellFormed, effect_of_exec (hs.symm.trans h)⟩)

theorem modesSame_of_step (h : step s = .next t) : ModesSame s t := by
  rcases step_effect h with rfl | ⟨f, rfl⟩ | ⟨i, _, he⟩
  · exact ⟨rfl, rfl, rfl, rfl⟩
  · exact modesSame_raise s f
  · exact (modesSame_emitTrace s i).trans (modesSame_of_effect he)

/-- With the flag clear the trace stage adds no line, and no other stage ever does. -/
theorem sink_of_step_untraced (htrace : s.trace = false) (h : step s = .next t) : t.sink = s.sink := by
  rcases step_effect h with rfl | ⟨f, rfl⟩ | ⟨i, _, he⟩
  · rfl
  · rfl
  · rw [sink_of_effect he, emitTrace_sink, if_neg (ne_true_of_eq_false htrace)]

end

theorem step_next (s : State) : ∃ t, step s = .next t := by
  rcases step_cases s with ⟨_, hs⟩ | ⟨_, _, hs⟩ | ⟨_, _, w, r, _, _, hs⟩ | ⟨_, _, w, i, _, _, hs⟩
  · exact ⟨_, hs⟩
  · exact ⟨_, hs⟩
  · exact ⟨_, hs⟩
  · obtain ⟨t, ht, _⟩ := exec_effect i (s.emitTrace i)
    exact ⟨t, hs.trans ht⟩

/-! ### What a host operation can do (R196 to R202, R205, R227) -/

section
variable {op : HostOp} {s t : State}

/-- A host operation is a reset, changes nothing on a latched core, or acts on a running one. -/
theorem perform_cases (h : perform op s = .next t) :
    (∃ w m, op = .reset w m ∧ t = State.launch w m) ∨ t = s ∨ performRunning op s = .next t := by
  cases hf : s.fault with
  | none => exact .inr (.inr (perform_running op s hf ▸ h))
  | some f =>
    by_cases hop : ∃ w m, op = .reset w m
    · obtain ⟨w, m, rfl⟩ := hop
      cases h; exact .inl ⟨w, m, rfl, rfl⟩
    · have hs := perform_latched hf fun w m hreset => hop ⟨w, m, hreset⟩
      cases h.symm.trans hs; exact .inr (.inl rfl)

theorem setPc_cases (s : State) (a : Word) : s.setPc a = s.writePc a ∨ s.setPc a = s.raise (.pcAlign a) := by
  cases hodd : a.getLsbD 0 with
  | false => exact .inl (setPc_even s a hodd)
  | true => exact .inr (setPc_odd s a hodd)

theorem incrementPc_cases (s : State) (n : Word) :
    s.incrementPc n = s.writePc (s.pc + n) ∨ s.incrementPc n = s.raise (.pcIncrement n) := by
  cases hodd : n.getLsbD 0 with
  | false => exact .inl (incrementPc_even s n hodd)
  | true => exact .inr (incrementPc_odd s n hodd)

theorem activateIsa_cases (s : State) (name : String) :
    s.activateIsa name = s ∨ ∃ b, s.activateIsa name = s.setWidthMode b := by
  cases hname : Config.isaNameWidth name with
  | none => exact .inl (activateIsa_unrecognised s hname)
  | some b => exact .inr ⟨b, activateIsa_recognised s hname⟩

theorem writeMem_next {a : Nat} {bytes : List Byte} (h : performRunning (.writeMem a bytes) s = .next t) :
    a + bytes.length ≤ s.mem.len ∧ t = { s with mem := s.mem.setBytes a bytes } := by
  rcases Nat.lt_or_ge s.mem.len (a + bytes.length) with hb | hb
  · simp only [performRunning, hostWriteMem_none s a bytes hb] at h
    cases h
  · simp only [performRunning, hostWriteMem_some s a bytes hb] at h
    cases h; exact ⟨hb, rfl⟩

/-- CODE, W32 and TRACE are changed by the operations named for them only, and the length of MEM by none: what
StepNeverTouchesCodeOrModes says of an operation other than reset. -/
structure ModesSameBut (op : HostOp) (s t : State) : Prop where
  code : t.code = s.code ∨ ∃ b, op = .loadCode b
  w32 : t.w32 = s.w32 ∨ (∃ b, op = .setWidthMode b) ∨ ∃ n, op = .activateIsa n
  trace : t.trace = s.trace ∨ ∃ b, op = .setTrace b
  memLen : t.mem.len = s.mem.len

theorem ModesSame.but (h : ModesSame s t) : ModesSameBut op s t := ⟨.inl h.code, .inl h.w32, .inl h.trace, h.memLen⟩

/-- Switching the width keeps CODE, TRACE and MEM, whichever operation does it. -/
theorem modesSameBut_setWidthMode (b : Bool) (hop : (∃ b, op = .setWidthMode b) ∨ ∃ n, op = .activateIsa n) :
    ModesSameBut op s (s.setWidthMode b) := by
  have hcode : (s.setWidthMode b).code = s.code := by unfold State.setWidthMode; split <;> rfl
  have htrace : (s.setWidthMode b).trace = s.trace := by unfold State.setWidthMode; split <;> rfl
  have hmem : (s.setWidthMode b).mem = s.mem := by unfold State.setWidthMode; split <;> rfl
  exact ⟨.inl hcode, .inr hop, .inl htrace, congrArg Memory.len hmem⟩

theorem modesSameBut_of_performRunning (h : performRunning op s = .next t) :
    (∃ w m, op = .reset w m) ∨ ModesSameBut op s t := by
  cases op with
  | reset w m => exact .inl ⟨w, m, rfl⟩
  | loadCode b => cases h; exact .inr ⟨.inr ⟨b, rfl⟩, .inl rfl, .inl rfl, rfl⟩
  | setTrace b => cases h; exact .inr ⟨.inl rfl, .inl rfl, .inr ⟨b, rfl⟩, rfl⟩
  | writeReg i v => cases h; exact .inr (modesSame_writeReg s i v).but
  | writePc v => cases h; exact .inr (modesSame_writePc s v).but
  | offsetPc d => cases h; exact .inr (modesSame_writePc s _).but
  | setPc a =>
    cases h
    rcases setPc_cases s a with hs | hs <;> rw [hs]
    · exact .inr (modesSame_writePc s a).but
    · exact .inr (modesSame_raise s _).but
  | incrementPc n =>
    cases h
    rcases incrementPc_cases s n with hs | hs <;> rw [hs]
    · exact .inr (modesSame_writePc s _).but
    · exact .inr (modesSame_raise s _).but
  | writeMem a bytes =>
    obtain ⟨_, rfl⟩ := writeMem_next h
    exact .inr ⟨.inl rfl, .inl rfl, .inl rfl, setBytes_len s.mem a bytes⟩
  | setWidthMode b => cases h; exact .inr (modesSameBut_setWidthMode b (.inl ⟨b, rfl⟩))
  | activateIsa name =>
    cases h
    rcases activateIsa_cases s name with hs | ⟨b, hs⟩ <;> rw [hs]
    · exact .inr ⟨.inl rfl, .inl rfl, .inl rfl, rfl⟩
    · exact .inr (modesSameBut_setWidthMode b (.inr ⟨name, rfl⟩))

theorem modesSameBut_of_perform (h : perform op s = .next t) : (∃ w m, op = .reset w m) ∨ ModesSameBut op s t := by
  rcases perform_cases h with ⟨w, m, hop, _⟩ | rfl | hrun
  · exact .inl ⟨w, m, hop⟩
  · exact .inr ⟨.inl rfl, .inl rfl, .inl rfl, rfl⟩
  · exact modesSameBut_of_performRunning hrun

end

/-! ### A word placed at the pc (log 14) -/

/-- The fetch reads back the four bytes of the placed word. -/
theorem fetched_placeWord (s : State) (w : InstrWord) :
    (((s.placeWord 32 w.toNat).code.readLE s.pcX.toNat 4).setWidth 32) = w := by
  have hvalue : BitVec.ofNat 64 (w.toNat % 2 ^ 32 % 2 ^ 32) = w.setWidth 64 := by
    apply BitVec.eq_of_toNat_eq
    rw [Nat.mod_mod, Nat.mod_eq_of_lt w.isLt, BitVec.toNat_ofNat, BitVec.toNat_setWidth]
  apply BitVec.eq_of_getLsbD_eq
  intro j hj
  unfold State.placeWord
  rw [BitVec.getLsbD_setWidth, readLE_writeLE _ _ _ _ (by decide), hvalue, BitVec.getLsbD_setWidth]
  simp only [hj, show j < 64 by omega, decide_true, Bool.true_and]

theorem placeWord_fetchInBounds (s : State) (n w : Nat) : s.pcX.toNat + 4 ≤ (s.placeWord n w).code.len := by
  unfold State.placeWord
  rw [writeLE_len]
  exact Nat.le_max_right _ _

/-! ### The statements -/

/-- Settles O40: an instruction writes its `rd` or the bytes of its store, keeps the rest of the state by the shape of its
effect, and faults only on its own access. -/
theorem instructionFrame : Obligations.InstructionFrame := by
  unfold Obligations.InstructionFrame
  intro i s t h
  have hw := exec_writes h
  have he := effect_of_exec h
  have hm := modesSame_of_effect he
  refine ⟨fun j => readCell_of_writes hw, fun x => byteAt_of_writes hw, hm.memLen, hm.code, hm.w32, hm.trace,
    sink_of_effect he, ?_⟩
  rcases exec_latch h with hkeep | ⟨addr, size, dir, hacc, hb, rfl⟩
  · exact .inl hkeep
  · exact .inr ⟨addr, size, dir, hacc, hb, rfl⟩

/-- Settles O46: fetch and decode answer with a fault latched, and execute answers for every instruction. -/
theorem everyStepAnswersANextState : Obligations.EveryStepAnswersANextState := by
  unfold Obligations.EveryStepAnswersANextState
  exact step_next

/-- Settles O51: by what a step and what a host operation can do. -/
theorem stepNeverTouchesCodeOrModes : Obligations.StepNeverTouchesCodeOrModes := by
  unfold Obligations.StepNeverTouchesCodeOrModes
  constructor
  · intro s t h
    obtain ⟨hcode, hw32, htrace, hlen⟩ := modesSame_of_step h
    exact ⟨hcode, hw32, htrace, hlen⟩
  · intro op s t h
    rcases modesSameBut_of_perform h with hreset | ⟨hcode, hw32, htrace, hlen⟩
    · exact .inl hreset
    · exact .inr ⟨hcode, hw32, htrace, hlen⟩

/-- Settles O41: the fetch gives the four bytes at the pc, which decode to the instruction. -/
theorem stepRunsTheDecodedInstruction : Obligations.StepRunsTheDecodedInstruction := by
  unfold Obligations.StepRunsTheDecodedInstruction
  intro s i hf hb hd _
  rw [step_eq_runWord_le32 hf hb, runWord_instr hd]

/-- Settles O42: only the trace stage writes the output, it is reached when the word decodes, and the re-encoded word is the
fetched one; each of the other cases stops before that stage or finds the flag clear. -/
theorem traceLinePrecedesExecution : Obligations.TraceLinePrecedesExecution := by
  unfold Obligations.TraceLinePrecedesExecution
  refine ⟨fun s i => by unfold State.emitTrace; split <;> rfl, fun s t h => ⟨?_, ?_⟩⟩
  · intro i hf hb hd htrace
    rw [step_eq_runWord_le32 hf hb, runWord_instr hd] at h
    rw [sink_of_effect (effect_of_exec h), emitTrace_sink, if_pos htrace, (reads_of_decode hd).encodes]
  · intro hno
    cases hf : s.fault with
    | some f => cases h.symm.trans (step_latched s f hf); rfl
    | none =>
      rcases hno with htrace | hlatched | hb | ⟨r, hr⟩
      · exact sink_of_step_untraced htrace h
      · exact absurd hf hlatched
      · cases h.symm.trans (step_fetch_fault s hf hb); rfl
      · rcases Nat.lt_or_ge s.code.len (s.pcX.toNat + 4) with hb | hb
        · cases h.symm.trans (step_fetch_fault s hf hb); rfl
        · rw [step_eq_runWord_le32 hf hb, runWord_reject hr] at h
          cases h; rfl

/-- Settles O50: by induction on the count. The first step either latches a fault, in the state the run then ends in, or
leaves a running core with one step less to do. -/
theorem countedRunEndsOrStopsAtTheFirstFault : Obligations.CountedRunEndsOrStopsAtTheFirstFault := by
  unfold Obligations.CountedRunEndsOrStopsAtTheFirstFault
  intro n
  induction n with
  | zero => exact fun s hf => ⟨s, runCount_zero s, .inl ⟨hf, core_run_zero s⟩⟩
  | succ n ih =>
    intro s hf
    obtain ⟨u, hu⟩ := step_next s
    rw [runCount_succ n s u hf hu]
    cases hfu : u.fault with
    | some f =>
      have hlatched : u.fault ≠ none := hfu ▸ Option.some_ne_none f
      exact ⟨u, runCount_latched n u f hfu, .inr ⟨0, s, Nat.succ_pos n, core_run_zero s, hf, hu, hlatched⟩⟩
    | none =>
      obtain ⟨t, ht, ⟨hft, hrun⟩ | ⟨k, v, hk, hrun, hend⟩⟩ := ih u hfu
      · exact ⟨t, ht, .inl ⟨hft, (core_run_succ n s u hu).trans hrun⟩⟩
      · exact ⟨t, ht, .inr ⟨k + 1, v, Nat.succ_lt_succ hk, (core_run_succ k s u hu).trans hrun, hend⟩⟩

/-- Settles O60: the placing clears the latch and makes the fetch in bounds, and the fetch reads the placed word. -/
theorem placedWordIsRunNext : Obligations.PlacedWordIsRunNext := by
  unfold Obligations.PlacedWordIsRunNext
  intro s w i hd
  refine ⟨?_, rfl, rfl, rfl, rfl⟩
  have hpc : (s.placeWord 32 w.toNat).pcX = s.pcX := pcX_congr rfl rfl
  change step (s.placeWord 32 w.toNat) = exec i ((s.placeWord 32 w.toNat).emitTrace i)
  rw [step_fetched _ (placeWord_fault s 32 w.toNat) (by rw [hpc]; exact placeWord_fetchInBounds s 32 w.toNat), hpc,
    fetched_placeWord, runWord_instr hd]

end Sys2Proof.Proofs.FrameRules
end

section
/-! The invariant (spec/10_state.md R11, R14) and the even pc (R26), at reset, over every step and every host operation. -/

namespace Sys2Proof.Proofs.Invariant

open Machine StateRules FrameRules

/-! ### The invariant over an effect, a launch and a host operation -/

theorem inv_of_effect {i : Instr} {s t : State} (hi : Inv s) (h : Effect i s t) : Inv t := by
  cases h with
  | reg rd r p _ => exact (hi.writeReg rd r).writePc p
  | stored a n v hb => exact (hi.storedBytes a n v hb).writePc _
  | fault addr size dir _ => exact hi.raise _

theorem inv_launch (w32 : Bool) {mem : Memory} (hm : mem.wf = true) : Inv (State.launch w32 mem) := by
  refine ⟨?_, fun _ i => ?_, fun _ => rfl, hm, rfl⟩
  · rw [launch_regs]; exact Vector.getElem_replicate _
  · rw [launch_regs, Fin.getElem_fin, Vector.getElem_replicate]; rfl

theorem inv_of_performRunning {op : HostOp} {s t : State} (hi : Inv s)
    (hop : ∀ w m, op = .reset w m → m.wf = true) (h : performRunning op s = .next t) : Inv t := by
  cases op with
  | reset w m => cases h; exact inv_launch w (hop w m rfl)
  | loadCode bytes => cases h; exact hi.congr rfl rfl rfl hi.memWf (ofBytes_wf bytes)
  | setTrace b => cases h; exact hi.congr rfl rfl rfl hi.memWf hi.codeWf
  | writeReg i v => cases h; exact hi.writeReg i v
  | writePc v => cases h; exact hi.writePc v
  | offsetPc d => cases h; exact hi.writePc _
  | setPc a =>
    cases h
    rcases setPc_cases s a with hs | hs <;> rw [hs]
    · exact hi.writePc a
    · exact hi.raise _
  | incrementPc n =>
    cases h
    rcases incrementPc_cases s n with hs | hs <;> rw [hs]
    · exact hi.writePc _
    · exact hi.raise _
  | writeMem a bytes =>
    obtain ⟨hb, rfl⟩ := writeMem_next h
    exact hi.congr rfl rfl rfl (setBytes_wf s.mem a bytes hi.memWf hb) hi.codeWf
  | setWidthMode b => cases h; exact hi.setWidthMode b
  | activateIsa name =>
    cases h
    rcases activateIsa_cases s name with hs | ⟨b, hs⟩ <;> rw [hs]
    · exact hi
    · exact hi.setWidthMode b

/-- In 32-bit mode a register of a state that meets the invariant reads below 2^32. -/
theorem readCell_narrow {s : State} (hi : Inv s) (hw : s.w32 = true) (i : RegIdx) : narrow (s.readCell i) = true := by
  unfold State.readCell
  split
  · rfl
  · exact hi.narrowRegs hw i.toFin

/-! ### The even pc (R26) -/

theorem pcEven_writePc (s : State) {v : Word} (hv : v.getLsbD 0 = false) : PcEven (s.writePc v) :=
  (trunc_bit0 s v).trans hv

theorem pcEven_launch (w32 : Bool) (mem : Memory) : PcEven (State.launch w32 mem) := by
  unfold PcEven
  rw [launch_pc]
  exact BitVec.getLsbD_zero

theorem pcEven_of_effect {i : Instr} {s t : State} (hwf : i.wellFormed = true) (hpc : PcEven s) (h : Effect i s t) :
    PcEven t := by
  cases h with
  | reg rd r p hp => exact pcEven_writePc _ (hp hwf hpc)
  | stored a n v _ => exact pcEven_writePc _ (add4_even i s hwf hpc)
  | fault addr size dir _ => exact hpc

/-! ### The statements -/

/-- Settles O47: the trace stage keeps the invariant and so does each shape an instruction's effect can have; a fault
latched by fetch or decode changes no field the invariant reads. -/
theorem stepKeepsTheInvariant : Obligations.StepKeepsTheInvariant := by
  unfold Obligations.StepKeepsTheInvariant
  intro s t hi h
  rcases step_effect h with rfl | ⟨f, rfl⟩ | ⟨i, _, he⟩
  · exact hi
  · exact hi.raise f
  · exact inv_of_effect (hi.emitTrace i) he

/-- Settles O49: the effect of a representable instruction keeps an even pc, and decode gives no other. -/
theorem stepKeepsThePcEven : Obligations.StepKeepsThePcEven := by
  unfold Obligations.StepKeepsThePcEven
  intro s t hpc h
  rcases step_effect h with rfl | ⟨f, rfl⟩ | ⟨i, hwf, he⟩
  · exact hpc
  · exact hpc
  · exact pcEven_of_effect hwf (by unfold PcEven; rw [emitTrace_pc]; exact hpc) he

/-- Settles O48: each operation on a running core is built of writes that keep the invariant, a latched core is left alone,
and a reset launches with the memory it is given. -/
theorem hostOperationsKeepTheInvariant : Obligations.HostOperationsKeepTheInvariant := by
  unfold Obligations.HostOperationsKeepTheInvariant
  intro op s t hi hop h
  rcases perform_cases h with ⟨w, m, hreset, rfl⟩ | rfl | hrun
  · exact inv_launch w (hop w m hreset)
  · exact hi
  · exact inv_of_performRunning hi hop hrun

/-- Settles O14: in a state that meets the invariant the width switch gives one that does, and it is in 32-bit mode. -/
theorem narrowModeReadsAreNarrow : Obligations.NarrowModeReadsAreNarrow := by
  unfold Obligations.NarrowModeReadsAreNarrow
  intro s i hi
  have hw : (s.setWidthMode true).w32 = true := by
    cases hs : s.w32 with
    | false => rw [setWidthMode_narrows s hs]
    | true => rw [setWidthMode_keeps s hs]; exact hs
  exact Nat.le_of_lt_succ ((narrow_iff _).mp (readCell_narrow (hi.setWidthMode true) hw i))

/-- Settles O53: `State.reset` is the launch whose memory lists nothing. -/
theorem resetMeetsTheInvariant : Obligations.ResetMeetsTheInvariant := by
  unfold Obligations.ResetMeetsTheInvariant
  exact ⟨fun w32 mem hm => ⟨inv_launch w32 hm, pcEven_launch w32 mem⟩, inv_launch _ reset_mem_wf, pcEven_launch _ _⟩

end Sys2Proof.Proofs.Invariant
end
